-- ==== Sys2Proof/Word.lean ====
section
/-! DEFINITION. The word types of the Nova-16 (spec/00_scope.md R5, R7): bytes, 16-bit words, the 12-bit flags register and
interrupt vector numbers. Bit 0 is the least significant bit; arithmetic on words is modulo 2^16 (R7, R42). -/

namespace Sys2Proof

/-- 8 bits (R5, "Byte size"). -/
abbrev Byte := BitVec 8

/-- 16 bits (R5, "Word size"); also an address (R5, "Address width"). -/
abbrev Word := BitVec 16

/-- The 12-bit flags register `F = E A H P Z C I D B O S T` (R20). -/
abbrev FlagsWord := BitVec 12

/-- An interrupt vector number, 0 to 7 (R5, R142). -/
abbrev Vec := Fin 8

end Sys2Proof
end

