-- ==== Sys2Proof/Config.lean ====
section
/-! DEFINITION. The parameters an implementation fixes (spec/00_scope.md R6), what the devices do (R6, R176) and the free values. The parameters are plain
data: State holds one `Config` in its field `cfg`, so that a statement about every state is a statement about every choice of
them (notes/assumptions/1.md). -/

namespace Sys2Proof

/-- `IDX_OFFSET_EXT` (R6, R67, D8): how the offset byte of an indexed operand is extended to 16 bits. -/
inductive OffsetExt where
  | zext
  | sext
deriving DecidableEq, Repr, Inhabited

/-- `VECTOR_FETCH` (R6, R148, D21): what an entry of the interrupt vector table holds. -/
inductive VectorFetch where
  | addressInSlot
  | executeSlot
deriving DecidableEq, Repr, Inhabited

/-- `IRQ_ACK` (R6, R145, D24): who clears a pending bit. -/
inductive IrqAck where
  | clearOnEntry
  | deviceHeld
deriving DecidableEq, Repr, Inhabited

/-- `ZERO_OPERAND_MODE_BYTE` (R6, R71, D1): whether an instruction without operands has a mode byte. -/
inductive ZeroOperandModeByte where
  | present
  | absent
deriving DecidableEq, Repr, Inhabited

/-- The nine OPEN opcode bytes (R74, D5), by the name of their instruction. -/
structure Opcodes where
  pop : Byte
  pusha : Byte
  popa : Byte
  pushf : Byte
  popf : Byte
  call : Byte
  ret : Byte
  int : Byte
  iret : Byte
deriving DecidableEq, Repr, Inhabited

/-- One run of addresses of `IO_REGION` (R49), both ends included. -/
structure IoRange where
  first : Word
  last : Word
deriving DecidableEq, Repr, Inhabited

/-- `RESET_FLAGS` and the reset values of every register other than SP, FP and PC (R6, R33, D28), with the pending bits and the
keyboard's buffer, to which R33 gives no value either. `p` holds P0-P7: SP and FP have the values of R170. The source gives none of
these; a launch takes them as they stand here, each of them any value. -/
structure ResetValues where
  flags : FlagsWord
  r : Vector Byte 10
  p : Vector Word 8
  vx : Byte
  vy : Byte
  vm : Byte
  vl : Byte
  tt : Word
  tm : Word
  tc : Byte
  ts : Byte
  irq : Vector Bool 8
  keyboard : List Byte
deriving DecidableEq, Repr

/-- The parameters of R6. `irqSources` is `IRQ_SOURCES` (R144), `resetPc` is `RESET_PC` (R171), `haltPc` is `HALT_PC` (R177,
`none` where a run has no end), `ioRegion` is `IO_REGION` (R49) as a list of address ranges, `resetValues` holds `RESET_FLAGS` and the
registers' reset values. The reset contents of memory and the two device oracles are arguments of a launch (`State.launch`). -/
structure Config where
  opcodes : Opcodes
  zeroOperandModeByte : ZeroOperandModeByte
  idxOffsetExt : OffsetExt
  vectorFetch : VectorFetch
  irqSources : List Vec
  irqAck : IrqAck
  resetPc : Word
  haltPc : Option Word
  ioRegion : List IoRange
  resetValues : ResetValues
deriving DecidableEq, Repr

/-- Something a device agent does at an instruction boundary (R144, R145, R150, R153). -/
inductive DeviceEvent where
  /-- a device requests vector `v` (R144); without effect if `v` is not in `IRQ_SOURCES` -/
  | request (v : Vec)
  /-- under `IRQ_ACK = device-held` a device withdraws its request for `v` (R145); without effect under `clear-on-entry` -/
  | withdraw (v : Vec)
  /-- the timer changes TT to any value (R150) -/
  | timerCount (value : Word)
  /-- a key arrives at the keyboard (R153) -/
  | keyArrives (key : Byte)
  /-- the keyboard gives up its oldest key (R153) -/
  | keyTaken
deriving DecidableEq, Repr

/-- FREE VALUE. What the devices do at the n-th boundary of a schedule of which nothing is said (R6, R176, D37). Log 9. -/
opaque Config.freeMoves : Nat → List DeviceEvent

/-- What the devices do once the moves written out in an agenda have been made (log 9). -/
inductive Recurrence where
  /-- the listed boundaries over and over again, one after the other; no boundary listed: the devices stay silent -/
  | cycle (moves : List (List DeviceEvent))
  /-- anything: the moves of the free schedule from its n-th boundary on -/
  | free (n : Nat)
deriving DecidableEq, Repr

/-- What the devices do at every coming boundary (R6 `TimerStep` and `KeyboardStep`, R144, R150, R153, R176, D37): first the moves
written out, one list of events for each boundary, then `recurrence` for ever. -/
structure Agenda where
  ahead : List (List DeviceEvent)
  recurrence : Recurrence
deriving DecidableEq, Repr

/-- The agenda of devices that never move. -/
def Agenda.silent : Agenda := ⟨[], .cycle []⟩

/-- FREE VALUE. The nine opcode bytes of a machine whose bytes nobody has supplied: the source gives none and the spec forbids
a guess (R74, D5). Log 2. -/
opaque Config.openOpcodes : Opcodes

/-- FREE VALUE. The 16-bit value of the n-th draw, where a word is drawn: a read of TT (R27). Log 11. -/
opaque Config.freeWord : Nat → Word

/-- FREE VALUE. The 8-bit value of the n-th draw, where a byte is drawn: a read of a byte of `IO_REGION` (R43, R49). Log 11. -/
opaque Config.freeByte : Nat → Byte

end Sys2Proof
end

