-- ==== Sys2Proof/Syntax/Operand.lean ====
section
/-! DEFINITION. The parts instructions are made of: operand widths, registers with an operand code (spec/30_encoding.md R68),
base registers (R67), memory references (R64, R67), operands (R66), addressing modes (R63) and mnemonics (R74). -/

namespace Sys2Proof

/-- The two access and register widths (spec/20_memory.md R41; R68, column Width). -/
inductive Width where
  | byte
  | word
deriving DecidableEq, Repr, Inhabited

/-- A register that has an operand code (R68). `r n` is Rn, `p n` is Pn; `p 8` is SP and `p 9` is FP (R12). -/
inductive Reg where
  | r (n : Fin 10)
  | p (n : Fin 10)
  | vx
  | vy
  | vm
  | vl
  | tt
  | tm
  | tc
  | ts
deriving DecidableEq, Repr, Inhabited

/-- SP is another name for P8 (R12). -/
abbrev Reg.sp : Reg := .p 8

/-- FP is another name for P9 (R12). -/
abbrev Reg.fp : Reg := .p 9

/-- A base register of an indirect or indexed operand: R0-R9 or P0-P9, no other (R67, D9). -/
inductive Base where
  | r (n : Fin 10)
  | p (n : Fin 10)
deriving DecidableEq, Repr, Inhabited

/-- A memory operand: direct `[0xHHHH]`, register indirect `[reg]`, register indexed `[reg+offset]` (R64). -/
inductive MemRef where
  | direct (addr : Word)
  | indirect (base : Base)
  | indexed (base : Base) (offset : Byte)
deriving DecidableEq, Repr, Inhabited

/-- A decoded operand (R66). -/
inductive Operand where
  | reg (r : Reg)
  | imm8 (v : Byte)
  | imm16 (v : Word)
  | mem (m : MemRef)
deriving DecidableEq, Repr, Inhabited

/-- The addressing mode codes 00, 01, 10, 11 (R63). -/
inductive AddrMode where
  | reg
  | imm8
  | imm16
  | mem
deriving DecidableEq, Repr, Inhabited

/-- The eleven mnemonics (R74). -/
inductive Mnemonic where
  | mov
  | push
  | pop
  | pusha
  | popa
  | pushf
  | popf
  | call
  | ret
  | int
  | iret
deriving DecidableEq, Repr, Inhabited

end Sys2Proof
end

