-- ==== Sys2Proof/Syntax.lean ====
section
/-! DEFINITION. The instructions: one constructor for each row of spec/opcode_table.json. -/

namespace Sys2Proof

/-- An instruction with its decoded operands. MOV keeps its two operands as the decoder reads them; which pairs are admitted is
`Instr.WellFormed` (spec/30_encoding.md R75). PUSH and POP take a register, CALL a 16-bit address, INT an 8-bit vector number
(0 to 255 in the encoding; above 7 it is `IllegalVector` when it runs, R122). -/
inductive Instr where
  | mov (dst src : Operand)
  | push (r : Reg)
  | pop (r : Reg)
  | pusha
  | popa
  | pushf
  | popf
  | call (target : Word)
  | ret
  | int (vector : Byte)
  | iret
deriving DecidableEq, Repr, Inhabited

end Sys2Proof
end

