-- ==== Sys2Proof/WellFormed.lean ====
section
/-! DEFINITION. Which instruction terms are admitted forms (spec/30_encoding.md R75). Only MOV's operand pair can be ill-formed:
every other constructor's arguments are of the one kind the table admits. -/

namespace Sys2Proof

/-- R75: a MOV destination is a register or a memory reference, never an immediate. -/
def Operand.isDestination : Operand → Bool
  | .reg _ => true
  | .mem _ => true
  | .imm8 _ => false
  | .imm16 _ => false

/-- R75: MOV memory to memory is not admitted. -/
def Operand.isMem : Operand → Bool
  | .mem _ => true
  | .reg _ => false
  | .imm8 _ => false
  | .imm16 _ => false

/-- R75: the admitted operand pairs of MOV. -/
def movAdmitted (dst src : Operand) : Bool :=
  dst.isDestination && !(dst.isMem && src.isMem)

/-- The check on an instruction term (R75). -/
def Instr.WellFormed : Instr → Bool
  | .mov dst src => movAdmitted dst src
  | .push _ => true
  | .pop _ => true
  | .pusha => true
  | .popa => true
  | .pushf => true
  | .popf => true
  | .call _ => true
  | .ret => true
  | .int _ => true
  | .iret => true

end Sys2Proof
end

