-- ==== Sys2Proof/Decode.lean ====
section
/-! DEFINITION. Decoding bytes (spec/30_encoding.md R60 to R77), total on any list of bytes and rejecting by name; the
parameters a machine has when nothing else is said; the encoder, written from the same tables; and the host's view of a row of
spec/opcode_table.json (`decodeTableWord`). Also the bit-field and byte-order helpers. -/

namespace Sys2Proof

/-! ### Bytes and words (R7, R45) -/

/-- `v[15:8]`. -/
def hiByte (v : Word) : Byte := v.extractLsb' 8 8

/-- `v[7:0]`. -/
def loByte (v : Word) : Byte := v.extractLsb' 0 8

/-- `hi ++ lo`: the big-endian value of two bytes, the first the more significant (R43, R45). -/
def wordOf (hi lo : Byte) : Word := hi ++ lo

/-- `zext_16` of a byte (R7). -/
def zextByte (b : Byte) : Word := b.setWidth 16

/-- `sext_16` of a byte (R7), used only under `IDX_OFFSET_EXT = sext`. -/
def sextByte (b : Byte) : Word := b.signExtend 16

/-! ### Register codes (R68) -/

/-- The operand code of a register (R68): code(Rn) = 0xA9 + n, code(Pn) = 0xB3 + n. -/
def Reg.code : Reg → Byte
  | .vm => 0x5F
  | .vl => 0x60
  | .tt => 0x61
  | .tm => 0x62
  | .tc => 0x63
  | .ts => 0x64
  | .r n => BitVec.ofNat 8 (0xA9 + n.val)
  | .p n => BitVec.ofNat 8 (0xB3 + n.val)
  | .vx => 0xBD
  | .vy => 0xBE

/-- The base register a code names (R67): 0xA9-0xB2 and 0xB3-0xBC, no other. -/
def Base.ofCode (c : Byte) : Option Base :=
  if c.toNat < 0xA9 then none
  else if c.toNat < 0xB3 then some (.r (Fin.ofNat 10 (c.toNat - 0xA9)))
  else if c.toNat < 0xBD then some (.p (Fin.ofNat 10 (c.toNat - 0xB3)))
  else none

/-- The register a base is. -/
def Base.reg : Base → Reg
  | .r n => .r n
  | .p n => .p n

/-- The register a code names (R68); every other byte names none (R69). -/
def Reg.ofCode (c : Byte) : Option Reg :=
  match Base.ofCode c with
  | some b => some b.reg
  | none =>
    if c = 0x5F then some .vm
    else if c = 0x60 then some .vl
    else if c = 0x61 then some .tt
    else if c = 0x62 then some .tm
    else if c = 0x63 then some .tc
    else if c = 0x64 then some .ts
    else if c = 0xBD then some .vx
    else if c = 0xBE then some .vy
    else none

/-- The width of a register (R68, R91): 16 bits for P0-P9, TT and TM, 8 bits for the others. -/
def Reg.width : Reg → Width
  | .r _ => .byte
  | .p _ => .word
  | .vx => .byte
  | .vy => .byte
  | .vm => .byte
  | .vl => .byte
  | .tt => .word
  | .tm => .word
  | .tc => .byte
  | .ts => .byte

/-! ### Opcodes (R71, R74) -/

/-- The mnemonics in the order of R74. -/
def Mnemonic.all : List Mnemonic :=
  [.mov, .push, .pop, .pusha, .popa, .pushf, .popf, .call, .ret, .int, .iret]

/-- The opcode byte of a mnemonic (R74): two bytes are the source's, nine are parameters. -/
def Config.opcode (cfg : Config) : Mnemonic → Byte
  | .mov => 0x06
  | .push => 0x2E
  | .pop => cfg.opcodes.pop
  | .pusha => cfg.opcodes.pusha
  | .popa => cfg.opcodes.popa
  | .pushf => cfg.opcodes.pushf
  | .popf => cfg.opcodes.popf
  | .call => cfg.opcodes.call
  | .ret => cfg.opcodes.ret
  | .int => cfg.opcodes.int
  | .iret => cfg.opcodes.iret

/-- R74, D5: the nine parameter bytes are pairwise distinct and none equals 0x06 or 0x2E. -/
abbrev Config.OpcodesLegal (cfg : Config) : Prop :=
  (Mnemonic.all.map cfg.opcode).Nodup

/-- The mnemonic an opcode byte stands for, if any (R74). -/
def Config.mnemonicOf (cfg : Config) (b : Byte) : Option Mnemonic :=
  Mnemonic.all.find? fun m => cfg.opcode m == b

/-- The number of operands is a property of the opcode (R71). -/
def Mnemonic.operandCount : Mnemonic → Nat
  | .mov => 2
  | .push => 1
  | .pop => 1
  | .call => 1
  | .int => 1
  | .pusha => 0
  | .popa => 0
  | .pushf => 0
  | .popf => 0
  | .ret => 0
  | .iret => 0

/-! ### The mode byte (R62, R63) -/

/-- The addressing mode a 2-bit code names (R63). -/
def AddrMode.ofBits (b : BitVec 2) : AddrMode :=
  if b = 0b00#2 then .reg
  else if b = 0b01#2 then .imm8
  else if b = 0b10#2 then .imm16
  else .mem

/-- The 2-bit code of an addressing mode (R63). -/
def AddrMode.bits : AddrMode → BitVec 2
  | .reg => 0b00#2
  | .imm8 => 0b01#2
  | .imm16 => 0b10#2
  | .mem => 0b11#2

/-- `m1`, bits 1:0 of the mode byte (R62). -/
def modeM1 (m : Byte) : AddrMode := .ofBits (m.extractLsb' 0 2)

/-- `m2`, bits 3:2 of the mode byte (R62). -/
def modeM2 (m : Byte) : AddrMode := .ofBits (m.extractLsb' 2 2)

/-- `m3`, bits 5:4 of the mode byte (R62). -/
def modeM3 (m : Byte) : AddrMode := .ofBits (m.extractLsb' 4 2)

/-- `X`, bit 6 of the mode byte, "Indexed addressing flag" (R62). -/
def modeX (m : Byte) : Bool := m.getLsbD 6

/-- `DIR`, bit 7 of the mode byte, "Direct addressing flag" (R62). -/
def modeDir (m : Byte) : Bool := m.getLsbD 7

/-- `mode = DIR ++ X ++ m3 ++ m2 ++ m1` (R62). -/
def modeByte (dir x : Bool) (m3 m2 m1 : AddrMode) : Byte :=
  BitVec.ofBool dir ++ BitVec.ofBool x ++ m3.bits ++ m2.bits ++ m1.bits

/-- The number of data bytes of an operand of mode `m` (R64, R65). -/
def AddrMode.size (m : AddrMode) (dir x : Bool) : Nat :=
  match m with
  | .reg => 1
  | .imm8 => 1
  | .imm16 => 2
  | .mem => if dir then 2 else if x then 2 else 1

/-! ### Decoding (R66) -/

/-- Why bytes are no instruction (R76). All but `truncated` are the machine's `IllegalInstruction(a)`; `truncated` says that the
list of bytes ended first, which a fetch from memory never meets. -/
inductive DecodeError where
  /-- the list of bytes is too short to hold the instruction -/
  | truncated
  /-- R76 (1): the opcode byte is none of R74's -/
  | unknownOpcode (opcode : Byte)
  /-- R76 (2): a register code outside R68 -/
  | unknownRegister (code : Byte)
  /-- R76 (3): a base-register code outside 0xA9-0xBC -/
  | unknownBase (code : Byte)
  /-- R76 (4): mode 11 with DIR = X = 1 -/
  | directAndIndexed
  /-- R76 (5): a non-zero unused field of the mode byte (R72) -/
  | unusedModeField
  /-- R76 (6): an operand form R75 does not admit -/
  | formNotAdmitted
deriving DecidableEq, Repr

/-- The operand that a mode names, and the bytes after it (R64, R66). -/
def parseOperand (dir x : Bool) (m : AddrMode) (bs : List Byte) : Except DecodeError (Operand × List Byte) :=
  match m, bs with
  | .reg, c :: rest =>
    match Reg.ofCode c with
    | some r => .ok (.reg r, rest)
    | none => .error (.unknownRegister c)
  | .imm8, v :: rest => .ok (.imm8 v, rest)
  | .imm16, h :: l :: rest => .ok (.imm16 (wordOf h l), rest)
  | .mem, h :: rest =>
    if dir && x then .error .directAndIndexed
    else if dir then
      match rest with
      | l :: rest => .ok (.mem (.direct (wordOf h l)), rest)
      | [] => .error .truncated
    else
      match Base.ofCode h with
      | none => .error (.unknownBase h)
      | some b =>
        if x then
          match rest with
          | o :: rest => .ok (.mem (.indexed b o), rest)
          | [] => .error .truncated
        else .ok (.mem (.indirect b), rest)
  | _, _ => .error .truncated

/-- The operands of a list of modes, in order, operand 1 first (R64, R66). -/
def parseOperands (dir x : Bool) : List AddrMode → List Byte → Except DecodeError (List Operand × List Byte)
  | [], bs => .ok ([], bs)
  | m :: ms, bs =>
    match parseOperand dir x m bs with
    | .error e => .error e
    | .ok (o, bs') =>
      match parseOperands dir x ms bs' with
      | .error e => .error e
      | .ok (os, bs'') => .ok (o :: os, bs'')

/-- The instruction of a mnemonic and its operands, if the form is admitted (R75). -/
def admittedForm (m : Mnemonic) (ops : List Operand) : Option Instr :=
  match m with
  | .mov =>
    match ops with
    | [dst, src] => if movAdmitted dst src then some (.mov dst src) else none
    | _ => none
  | .push =>
    match ops with
    | [.reg r] => some (.push r)
    | _ => none
  | .pop =>
    match ops with
    | [.reg r] => some (.pop r)
    | _ => none
  | .call =>
    match ops with
    | [.imm16 t] => some (.call t)
    | _ => none
  | .int =>
    match ops with
    | [.imm8 n] => some (.int n)
    | _ => none
  | .pusha => if ops = [] then some .pusha else none
  | .popa => if ops = [] then some .popa else none
  | .pushf => if ops = [] then some .pushf else none
  | .popf => if ops = [] then some .popf else none
  | .ret => if ops = [] then some .ret else none
  | .iret => if ops = [] then some .iret else none

/-- R66 from the mode byte on: the used fields give the operands, the unused ones must be zero (R72), the form must be
admitted (R75). -/
def decodeModed (m : Mnemonic) (mode : Byte) (data : List Byte) : Except DecodeError (Instr × List Byte) :=
  let dir := modeDir mode
  let x := modeX mode
  let fields := [modeM1 mode, modeM2 mode, modeM3 mode]
  let used := fields.take m.operandCount
  let unused := fields.drop m.operandCount
  match parseOperands dir x used data with
  | .error e => .error e
  | .ok (ops, rest) =>
    if unused.any (· != .reg) then .error .unusedModeField
    else if (dir || x) && !used.contains .mem then .error .unusedModeField
    else
      match admittedForm m ops with
      | none => .error .formNotAdmitted
      | some i => .ok (i, rest)

/-- Decoding (R66): the instruction at the head of a list of bytes and the bytes after it. Under
`ZERO_OPERAND_MODE_BYTE = absent` an instruction without operands is its opcode byte alone (R71). -/
def decode (cfg : Config) : List Byte → Except DecodeError (Instr × List Byte)
  | [] => .error .truncated
  | opc :: rest =>
    match cfg.mnemonicOf opc with
    | none => .error (.unknownOpcode opc)
    | some m =>
      if m.operandCount = 0 ∧ cfg.zeroOperandModeByte = .absent then
        match admittedForm m [] with
        | none => .error .formNotAdmitted
        | some i => .ok (i, rest)
      else
        match rest with
        | [] => .error .truncated
        | mode :: data => decodeModed m mode data

/-! ### Encoding (R60, R62, R64, R74) -/

/-- The mnemonic of an instruction. -/
def Instr.mnemonic : Instr → Mnemonic
  | .mov _ _ => .mov
  | .push _ => .push
  | .pop _ => .pop
  | .pusha => .pusha
  | .popa => .popa
  | .pushf => .pushf
  | .popf => .popf
  | .call _ => .call
  | .ret => .ret
  | .int _ => .int
  | .iret => .iret

/-- The operands of an instruction, operand 1 first. -/
def Instr.operands : Instr → List Operand
  | .mov dst src => [dst, src]
  | .push r => [.reg r]
  | .pop r => [.reg r]
  | .call t => [.imm16 t]
  | .int n => [.imm8 n]
  | .pusha => []
  | .popa => []
  | .pushf => []
  | .popf => []
  | .ret => []
  | .iret => []

/-- The addressing mode of an operand (R63). -/
def Operand.mode : Operand → AddrMode
  | .reg _ => .reg
  | .imm8 _ => .imm8
  | .imm16 _ => .imm16
  | .mem _ => .mem

/-- DIR is set for a direct memory reference (R64). -/
def Operand.dir : Operand → Bool
  | .mem (.direct _) => true
  | _ => false

/-- X is set for an indexed memory reference (R64). -/
def Operand.idx : Operand → Bool
  | .mem (.indexed _ _) => true
  | _ => false

/-- The data bytes of an operand (R64). -/
def Operand.data : Operand → List Byte
  | .reg r => [r.code]
  | .imm8 v => [v]
  | .imm16 v => [hiByte v, loByte v]
  | .mem (.direct a) => [hiByte a, loByte a]
  | .mem (.indirect b) => [b.reg.code]
  | .mem (.indexed b o) => [b.reg.code, o]

/-- The mode byte of up to three operands (R62); the fields of absent operands are zero (R72). -/
def modeByteOf (ops : List Operand) : Byte :=
  let field (k : Nat) : AddrMode := (ops[k]?.map Operand.mode).getD .reg
  modeByte (ops.any Operand.dir) (ops.any Operand.idx) (field 2) (field 1) (field 0)

/-- The bytes of an instruction: opcode, mode byte, operand data (R60). -/
def encode (cfg : Config) (i : Instr) : List Byte :=
  cfg.opcode i.mnemonic ::
    if i.operands = [] ∧ cfg.zeroOperandModeByte = .absent then []
    else modeByteOf i.operands :: i.operands.flatMap Operand.data

/-- The length of an instruction (R65). -/
def Instr.length (cfg : Config) (i : Instr) : Nat := (encode cfg i).length

/-! ### The parameters where nothing else is said (R6) -/

/-- The reset values of `defaultConfig`, all zeros and empty: R33 leaves them unspecified. DESIGN CHOICE, log 4 (registers), log 5
(flags), log 6 (pending bits), log 10 (keyboard). -/
def zeroResetValues : ResetValues where
  flags := 0
  r := .replicate 10 0
  p := .replicate 8 0
  vx := 0
  vy := 0
  vm := 0
  vl := 0
  tt := 0
  tm := 0
  tc := 0
  ts := 0
  irq := .replicate 8 false
  keyboard := []

/-- The parameters of `State.reset`: the spec's defaults where R6 has one. R6 gives no default for the nine opcode bytes (free,
log 2), `RESET_PC` (DESIGN CHOICE 0x0000, log 3), `HALT_PC` (none, log 14), `IO_REGION` (DESIGN CHOICE empty, log 8) and the reset
values (`zeroResetValues`). -/
def defaultConfig : Config where
  opcodes := Config.openOpcodes
  zeroOperandModeByte := .present
  idxOffsetExt := .zext
  vectorFetch := .addressInSlot
  irqSources := [0, 2]
  irqAck := .clearOnEntry
  resetPc := 0x0000
  haltPc := none
  ioRegion := []
  resetValues := zeroResetValues

/-! ### The host's view of a row of spec/opcode_table.json -/

/-- Byte `k` of a number, byte 0 its least significant one. -/
def byteOfNat (w k : Nat) : Byte := BitVec.ofNat 8 (w >>> (8 * k))

/-- The eight bytes, in memory order, of an instruction whose bits are `w` as the table numbers them: the table's word is
(opcode byte << 8) | mode byte, so each 16-bit word lies in memory most significant byte first (R45), the first word at the
lowest address, and a later word's bits count on from the first's. Bits from `nbits` on are zero. Log 13. -/
def tableBytes (nbits w : Nat) : List Byte :=
  let v := w % 2 ^ nbits
  [byteOfNat v 1, byteOfNat v 0, byteOfNat v 3, byteOfNat v 2, byteOfNat v 5, byteOfNat v 4, byteOfNat v 7, byteOfNat v 6]

/-- The instruction the decoder reads from a row's word, with the parameters of `defaultConfig`. Log 13. -/
def decodeTableWord (nbits w : Nat) : Option Instr :=
  match decode defaultConfig (tableBytes nbits w) with
  | .ok (i, _) => some i
  | .error _ => none

end Sys2Proof
end

