-- ==== Sys2Proof/Machine/State.lean ====
section
/-! DEFINITION. The state of the machine as plain data (spec/10_state.md, whole), the reasons a step can stop (spec/60_exceptions.md
R140), and the state a run starts from (spec/10_state.md R33, spec/70_reset_and_hazards.md R170, R171, R178). -/

namespace Sys2Proof.Machine

/-- Memory (R40): the (address, byte) pairs of the addresses that do not read as `unlistedByte`, addresses strictly rising. -/
abbrev Memory := List Host.Cell

/-- The model faults (R140): outcomes of the model where the source defines no behaviour, not events of the hardware. The stopped
instruction has made none of its writes; the program counter a handler would see is the `addr` recorded. -/
inductive Fault where
  /-- Raised by `step` where the bytes at PC are no instruction (R66, R76), and by MOV on an operand pair R75 does not admit
  (which no bytes decode to). SAFE: the hardware may well run such bytes. -/
  | illegalInstruction (addr : Word)
  /-- Raised by INT with a vector number above 7 (R122, D20). SAFE: the hardware may well go on. -/
  | illegalVector (addr : Word) (n : Byte)
deriving DecidableEq, Repr

/-- What the model declines to give a meaning to. -/
inductive Refusal where
  /-- Raised by an arm of `exec` whose instruction has no meaning yet; no arm is left in that state. SAFE. -/
  | notModelled (mnemonic : String)
  /-- Raised by the assembler-level transcriber (`transcribe`), never by `step`: a source line uses `Pn:` or `:Pn`, which have no
  encoding (R70, R140, D6). SAFE: no byte sequence means them. -/
  | byteViewNotEncodable (line : String)
  /-- Raised by the assembler-level transcriber, never by `step`: a source line's operand form is not admitted (R75). SAFE. -/
  | lineNotAdmitted (line : String)
deriving DecidableEq, Repr

/-- The state of the machine. Fields in the order of spec/10_state.md; `cfg` holds the parameters of R6 and never changes;
`agenda`, `draws` and `deviceWrites` are the model's own (INVENTORY.md, State). -/
structure State where
  /-- R0-R9 (R10) -/
  r : Vector Byte 10
  /-- P0-P9, SP = P8 and FP = P9 (R11, R12) -/
  p : Vector Word 10
  /-- graphics X coordinate (R14) -/
  vx : Byte
  /-- graphics Y coordinate (R14) -/
  vy : Byte
  /-- video mode (R28) -/
  vm : Byte
  /-- graphics layer (R28) -/
  vl : Byte
  /-- timer counter (R27) -/
  tt : Word
  /-- timer match value (R27) -/
  tm : Word
  /-- timer control (R27) -/
  tc : Byte
  /-- timer speed (R27) -/
  ts : Byte
  /-- program counter (R17) -/
  pc : Word
  /-- flags register (R20) -/
  f : FlagsWord
  /-- memory (R40) -/
  mem : Memory
  /-- the pending bits `irq[0..7]` (R32, R144) -/
  irq : Vector Bool 8
  /-- the keyboard's buffer, oldest key first (R32, R153) -/
  keyboard : List Byte
  /-- what was written to `IO_REGION`, newest first (R44, R49); the model's own -/
  deviceWrites : List Host.Cell
  /-- what the devices do at the coming boundaries, without end (R144, R150, R153, R176, D37); the model's own -/
  agenda : Agenda
  /-- how many values have been drawn (R27, R43); the model's own -/
  draws : Nat
  /-- the parameters (R6) -/
  cfg : Config
deriving DecidableEq, Repr

/-- A launch (R171, R178): PC = `RESET_PC`, SP = FP = 0xFFFF (R33, R170), memory as the image, every other register, F, the pending bits
and the keyboard's buffer as `cfg.resetValues` has them (R6, D28), the devices' moves as `devices` has them (R6, D37). -/
def State.launch (cfg : Config) (image : Memory) (devices : Agenda) : State where
  r := cfg.resetValues.r
  p := (cfg.resetValues.p.push 0xFFFF).push 0xFFFF
  vx := cfg.resetValues.vx
  vy := cfg.resetValues.vy
  vm := cfg.resetValues.vm
  vl := cfg.resetValues.vl
  tt := cfg.resetValues.tt
  tm := cfg.resetValues.tm
  tc := cfg.resetValues.tc
  ts := cfg.resetValues.ts
  pc := cfg.resetPc
  f := cfg.resetValues.flags
  mem := image
  irq := cfg.resetValues.irq
  keyboard := cfg.resetValues.keyboard
  deviceWrites := []
  agenda := devices
  draws := 0
  cfg := cfg

/-- The machine right after reset (R33, R170): the launch with the default parameters, nothing in memory and devices that do not
move. -/
def State.reset : State := State.launch defaultConfig [] Agenda.silent

end Sys2Proof.Machine
end

