-- ==== Sys2Proof/Machine/Flags.lean ====
section
/-! DEFINITION. The flags register (spec/10_state.md R20 to R26): the place of each flag, its image on the stack, and the one
computation an instruction in scope makes on it, clearing I. No instruction in scope computes a result flag (R21, R25). -/

namespace Sys2Proof.Machine

/-- The twelve flags (R20). -/
inductive Flag where
  | e
  | a
  | h
  | p
  | z
  | c
  | i
  | d
  | b
  | o
  | s
  | t
deriving DecidableEq, Repr

/-- The bit of the flags register that holds a flag (R20). -/
def Flag.bit : Flag → Nat
  | .e => 11
  | .a => 10
  | .h => 9
  | .p => 8
  | .z => 7
  | .c => 6
  | .i => 5
  | .d => 4
  | .b => 3
  | .o => 2
  | .s => 1
  | .t => 0

/-- `F.X` (R7). -/
def flagOf (f : FlagsWord) (x : Flag) : Bool := f.getLsbD x.bit

/-- `F.I <- 0`, every other flag as before (R21, R22). -/
def clearI (f : FlagsWord) : FlagsWord := f &&& ~~~(0x020 : FlagsWord)

/-- The 16-bit image of F on the stack: bits 15..12 zero (R26, D16). -/
def flagsImage (f : FlagsWord) : Word := f.setWidth 16

/-- F loaded from a stack entry: bits 15..12 ignored (R26, D16). -/
def flagsOfImage (w : Word) : FlagsWord := w.setWidth 12

end Sys2Proof.Machine
end

