-- ==== Sys2Proof/Machine/Memory.lean ====
section
/-! DEFINITION. Memory as an array of 65 536 bytes (spec/20_memory.md R40, R43, R44): reading and writing one byte of RAM, and the
canonical form of the list that holds it. -/

namespace Sys2Proof.Machine

/-- What an address that is not listed reads as. The spec gives memory no reset content (R33); 0x00 is a DESIGN CHOICE, log 7. -/
def unlistedByte : Byte := 0

/-- The canonical form: addresses strictly rising and inside the 64 KB (R40), no entry equal to what an unlisted address reads as. -/
abbrev Memory.wf (m : Memory) : Prop :=
  m.Pairwise (fun a b => a.1 < b.1) ∧ ∀ c ∈ m, c.1 < 65536 ∧ c.2 ≠ unlistedByte

/-- The byte listed at an address, or `unlistedByte`. -/
def Memory.lookup : Memory → Nat → Byte
  | [], _ => unlistedByte
  | c :: m, k => if c.1 = k then c.2 else lookup m k

/-- `M[a]` (R7, R40). -/
def Memory.read (m : Memory) (a : Word) : Byte := m.lookup a.toNat

/-- Put a cell before the first cell with a greater address. -/
def Memory.insert (c : Host.Cell) : Memory → Memory
  | [] => [c]
  | d :: m => if c.1 < d.1 then c :: d :: m else d :: insert c m

/-- `M[a] <- b` (R44), keeping the canonical form. -/
def Memory.write (m : Memory) (a : Word) (b : Byte) : Memory :=
  let others := m.filter fun c => c.1 != a.toNat
  if b = unlistedByte then others else Memory.insert (a.toNat, b) others

/-- A list of bytes stored at consecutive addresses modulo 2^16, the first at `a` (R42). -/
def Memory.writeBytes (m : Memory) (a : Word) : List Byte → Memory
  | [] => m
  | b :: bs => writeBytes (m.write a b) (a + 1) bs

end Sys2Proof.Machine
end

