-- ==== Sys2Proof/Machine/Ops.lean ====
section
/-! DEFINITION. The named operations the meanings are made of: registers (spec/10_state.md R10 to R14, R27), memory accesses with
the device region (spec/20_memory.md R43, R44, R49), the stack (spec/41_stack.md R100, R101), entering a handler and returning
from one (spec/60_exceptions.md R148, R149, R154). -/

namespace Sys2Proof.Machine

/-! ### Registers -/

/-- Write Rn (R10). -/
def State.setR (s : State) (n : Fin 10) (v : Byte) : State := { s with r := s.r.set n v }

/-- Write Pn (R11). -/
def State.setP (s : State) (n : Fin 10) (v : Word) : State := { s with p := s.p.set n v }

/-- Load PC (R17, R18). -/
def State.setPc (s : State) (v : Word) : State := { s with pc := v }

/-- Load F (R21). -/
def State.setF (s : State) (v : FlagsWord) : State := { s with f := v }

/-- SP is P8 (R12). -/
def State.sp (s : State) : Word := s.p.get 8

/-- FP is P9 (R12). -/
def State.fp (s : State) : Word := s.p.get 9

/-- Write SP (R12). -/
def State.setSp (s : State) (v : Word) : State := s.setP 8 v

/-- `Pn:`, bits 15-8 of Pn (R13). -/
def State.highByte (s : State) (n : Fin 10) : Byte := hiByte (s.p.get n)

/-- `:Pn`, bits 7-0 of Pn (R13). -/
def State.lowByte (s : State) (n : Fin 10) : Byte := loByte (s.p.get n)

/-- Write `Pn:`: the low byte of Pn is unchanged (R13). -/
def State.setHighByte (s : State) (n : Fin 10) (b : Byte) : State := s.setP n (wordOf b (s.lowByte n))

/-- Write `:Pn`: the high byte of Pn is unchanged (R13). -/
def State.setLowByte (s : State) (n : Fin 10) (b : Byte) : State := s.setP n (wordOf (s.highByte n) b)

/-- What a register holds, zero-extended to 16 bits where it is an 8-bit register (R7 `zext_16(x[r])`). -/
def State.stored (s : State) : Reg → Word
  | .r n => zextByte (s.r.get n)
  | .p n => s.p.get n
  | .vx => zextByte s.vx
  | .vy => zextByte s.vy
  | .vm => zextByte s.vm
  | .vl => zextByte s.vl
  | .tt => s.tt
  | .tm => s.tm
  | .tc => zextByte s.tc
  | .ts => zextByte s.ts

/-- The next drawn word. -/
def drawWord (s : State) : Word × State := (Config.freeWord s.draws, { s with draws := s.draws + 1 })

/-- The next drawn byte. -/
def drawByte (s : State) : Byte × State := (Config.freeByte s.draws, { s with draws := s.draws + 1 })

/-- Read a register as a source operand, zero-extended to 16 bits. A read of TT is a draw (R27); every other register gives what
it holds. -/
def readReg (r : Reg) (s : State) : Word × State :=
  match r with
  | .tt => drawWord s
  | r => (s.stored r, s)

/-- Write a register: an 8-bit register keeps the low byte of the value (R92, R103). -/
def writeReg (r : Reg) (v : Word) (s : State) : State :=
  match r with
  | .r n => s.setR n (loByte v)
  | .p n => s.setP n v
  | .vx => { s with vx := loByte v }
  | .vy => { s with vy := loByte v }
  | .vm => { s with vm := loByte v }
  | .vl => { s with vl := loByte v }
  | .tt => { s with tt := v }
  | .tm => { s with tm := v }
  | .tc => { s with tc := loByte v }
  | .ts => { s with ts := loByte v }

/-! ### Memory accesses (R43, R44, R49) -/

/-- Whether an address lies in a run of addresses. -/
def inRange (a : Word) (range : IoRange) : Bool := decide (range.first ≤ a) && decide (a ≤ range.last)

/-- Whether an address lies in `IO_REGION` (R49). -/
def State.isIo (s : State) (a : Word) : Bool := s.cfg.ioRegion.any (inRange a)

/-- `MemRead(a, 1)` (R43): a byte of RAM, or a draw where the address is in `IO_REGION`. -/
def readByte (a : Word) (s : State) : Byte × State :=
  if s.isIo a then drawByte s else (s.mem.read a, s)

/-- `MemRead(a, 2)` (R43): big-endian, the byte at `a` is bits 15..8. -/
def readWord (a : Word) (s : State) : Word × State :=
  let (hi, s1) := readByte a s
  let (lo, s2) := readByte (a + 1) s1
  (wordOf hi lo, s2)

/-- `MemWrite(a, 1, v)` (R44): RAM takes the byte; in `IO_REGION` a device takes it and RAM is unchanged (R49, R52, log 12). -/
def writeByte (a : Word) (b : Byte) (s : State) : State :=
  if s.isIo a then { s with deviceWrites := (a.toNat, b) :: s.deviceWrites }
  else { s with mem := s.mem.write a b }

/-- `MemWrite(a, 2, v)` (R44): `v[15:8]` at `a`, then `v[7:0]` at `a + 1`. -/
def writeWord (a : Word) (v : Word) (s : State) : State :=
  writeByte (a + 1) (loByte v) (writeByte a (hiByte v) s)

/-- `n` single-byte reads at consecutive addresses, lowest first (R41, R42). -/
def readBytes : Nat → Word → State → List Byte × State
  | 0, _, s => ([], s)
  | n + 1, a, s =>
    let (b, s1) := readByte a s
    let (bs, s2) := readBytes n (a + 1) s1
    (b :: bs, s2)

/-! ### The stack (R100, R101) -/

/-- `Push16(v)` (R100): the decrement comes first, the store uses the new SP. -/
def push16 (v : Word) (s : State) : State :=
  let s1 := s.setSp (s.sp - 2)
  writeWord s1.sp v s1

/-- `Pop16()` (R101): the read uses the old SP. -/
def pop16 (s : State) : Word × State :=
  let (v, s1) := readWord s.sp s
  (v, s1.setSp (s1.sp + 2))

/-- Push a register (R102): the register is read after the decrement. -/
def pushReg (r : Reg) (s : State) : State :=
  let s1 := s.setSp (s.sp - 2)
  let (v, s2) := readReg r s1
  writeWord s2.sp v s2

/-- Pop a register (R103): the register is written before SP is read again and incremented. -/
def popReg (r : Reg) (s : State) : State :=
  let (v, s1) := readWord s.sp s
  let s2 := writeReg r v s1
  s2.setSp (s2.sp + 2)

/-- Push the flags register (R106). -/
def pushFlags (s : State) : State := push16 (flagsImage s.f) s

/-- Pop the flags register (R107). -/
def popFlags (s : State) : State :=
  let (w, s1) := pop16 s
  s1.setF (flagsOfImage w)

/-- Push PC (R120, R122, R149). -/
def pushPc (s : State) : State := push16 s.pc s

/-- Pop PC (R121, R123). -/
def popPc (s : State) : State :=
  let (w, s1) := pop16 s
  s1.setPc w

/-! ### Entering a handler and returning from one -/

/-- The address of a vector's table entry, 0x0100 + 4 x vector (R50, R142). -/
def vectorEntry (v : Vec) : Word := 0x0100 + 4 * BitVec.ofNat 16 v.val

/-- `PC <- VectorTarget(v)` (R148): under `VECTOR_FETCH = address-in-slot` the entry's first two bytes hold the handler's address;
under `execute-slot` the entry itself is code. -/
def jumpToVector (v : Vec) (s : State) : State :=
  match s.cfg.vectorFetch with
  | .addressInSlot =>
    let (target, s1) := readWord (vectorEntry v) s
    s1.setPc target
  | .executeSlot => s.setPc (vectorEntry v)

/-- Entering a handler, shared by INT and hardware interrupt entry (R122, R149): push PC, push F, clear I, jump through the vector
table. -/
def enterHandler (v : Vec) (s : State) : State :=
  let s1 := pushFlags (pushPc s)
  jumpToVector v (s1.setF (clearI s1.f))

/-- Returning from a handler (R123, R154): pop F, then PC. -/
def returnFromHandler (s : State) : State := popPc (popFlags s)

/-- Set or clear a pending bit. -/
def State.setIrq (s : State) (v : Vec) (b : Bool) : State := { s with irq := s.irq.set v b }

/-- `TakeInterrupt(v)`, hardware interrupt entry (R149). The pending bit is cleared under `IRQ_ACK = clear-on-entry` (R145). -/
def takeInterrupt (v : Vec) (s : State) : State :=
  match s.cfg.irqAck with
  | .clearOnEntry => enterHandler v (s.setIrq v false)
  | .deviceHeld => enterHandler v s

/-- The highest-priority pending vector: the lowest number (R147). -/
def pendingVector (s : State) : Option Vec :=
  [(0 : Vec), 1, 2, 3, 4, 5, 6, 7].find? fun v => s.irq.get v

/-- The interrupt the CPU takes at a boundary (R146): the highest-priority pending one if F.I = 1, else none. -/
def acceptedVector (s : State) : Option Vec :=
  if flagOf s.f .i then pendingVector s else none

end Sys2Proof.Machine
end

