-- ==== Sys2Proof/Machine/Devices.lean ====
section
/-! DEFINITION. The device agents (spec/60_exceptions.md R144, R145, R150, R153): what one device event does, and the moves the
agenda gives for one boundary. Nothing is assumed about which events come, nor that they ever end (R176, D37, log 9). -/

namespace Sys2Proof

/-- The events of the coming boundary, and the agenda of the boundaries after it. No agenda runs out (R176). -/
def Agenda.next (a : Agenda) : List DeviceEvent × Agenda :=
  match a.ahead with
  | es :: rest => (es, ⟨rest, a.recurrence⟩)
  | [] =>
    match a.recurrence with
    | .cycle [] => ([], a)
    | .cycle (es :: rest) => (es, ⟨[], .cycle (rest ++ [es])⟩)
    | .free n => (Config.freeMoves n, ⟨[], .free (n + 1)⟩)

end Sys2Proof

namespace Sys2Proof.Machine

/-- The keyboard's buffer holds 16 keys (R5, R153). -/
def keyboardDepth : Nat := 16

/-- One device event. A request of a vector outside `IRQ_SOURCES` has no effect (R144); a request stays until it is taken, so a
withdrawal has an effect only under `IRQ_ACK = device-held` (R145, log 22); a key that finds the buffer full is lost and the
buffer is not corrupted (R153, log 10). -/
def applyEvent (e : DeviceEvent) (s : State) : State :=
  match e with
  | .request v => if v ∈ s.cfg.irqSources then s.setIrq v true else s
  | .withdraw v =>
    match s.cfg.irqAck with
    | .clearOnEntry => s
    | .deviceHeld => s.setIrq v false
  | .timerCount value => { s with tt := value }
  | .keyArrives key => if s.keyboard.length < keyboardDepth then { s with keyboard := s.keyboard ++ [key] } else s
  | .keyTaken => { s with keyboard := s.keyboard.tail }

/-- Device events in order. -/
def applyEvents : List DeviceEvent → State → State
  | [], s => s
  | e :: es, s => applyEvents es (applyEvent e s)

/-- The devices' moves at one boundary: those the agenda has for it. -/
def devicesMove (s : State) : State :=
  applyEvents s.agenda.next.1 { s with agenda := s.agenda.next.2 }

/-- "Key available" (R153). -/
def State.keyAvailable (s : State) : Bool := decide (0 < s.keyboard.length)

/-- "Buffer full" (R153). -/
def State.bufferFull (s : State) : Bool := decide (s.keyboard.length = keyboardDepth)

/-- "Interrupt pending": `irq[2]` seen from the device's side (R145). -/
def State.keyboardPending (s : State) : Bool := s.irq.get 2

end Sys2Proof.Machine
end

