-- ==== Sys2Proof/Machine/Operands.lean ====
section
/-! DEFINITION. Operand forms: the effective address of a memory operand (spec/30_encoding.md R67), the width of a MOV
(spec/40_move.md R91), fitting a value into a width (R92), and reading and writing an operand of a given width. -/

namespace Sys2Proof.Machine

/-- The offset byte of an indexed operand as 16 bits (R64, R67, D8). -/
def extendOffset (ext : OffsetExt) (o : Byte) : Word :=
  match ext with
  | .zext => zextByte o
  | .sext => sextByte o

/-- `EA` (R67): modulo 2^16; an 8-bit base is zero-extended; the base is not modified. -/
def effectiveAddress (m : MemRef) (s : State) : Word :=
  match m with
  | .direct a => a
  | .indirect b => s.stored b.reg
  | .indexed b o => s.stored b.reg + extendOffset s.cfg.idxOffsetExt o

/-- `Fit` (R92) on a value carried as 16 bits, zero-extended where it came from 8 bits: into 8 bits the low byte is kept, into 16
bits the value is as it is. -/
def fit (w : Width) (v : Word) : Word :=
  match w with
  | .byte => zextByte (loByte v)
  | .word => v

/-- `MovWidth(dst, src)` (R91); none where the pair is not admitted (R75). -/
def movWidth (dst src : Operand) : Option Width :=
  match dst, src with
  | .reg d, _ => some d.width
  | .mem _, .reg r => some r.width
  | .mem _, .imm8 _ => some .byte
  | .mem _, .imm16 _ => some .word
  | .mem _, .mem _ => none
  | .imm8 _, _ => none
  | .imm16 _, _ => none

/-- `MemRead(a, W/8)` as 16 bits, zero-extended from one byte (R43, R90). -/
def readSized (w : Width) (a : Word) (s : State) : Word × State :=
  match w with
  | .byte =>
    let (b, s1) := readByte a s
    (zextByte b, s1)
  | .word => readWord a s

/-- `MemWrite(a, W/8, v)` (R44, R90). -/
def writeSized (w : Width) (a : Word) (v : Word) (s : State) : State :=
  match w with
  | .byte => writeByte a (loByte v) s
  | .word => writeWord a v s

/-- The value of a MOV source, fitted to the width of the move (R90, R92). -/
def readOperand (w : Width) (src : Operand) (s : State) : Word × State :=
  match src with
  | .reg r =>
    let (v, s1) := readReg r s
    (fit w v, s1)
  | .imm8 i => (fit w (zextByte i), s)
  | .imm16 i => (fit w i, s)
  | .mem m => readSized w (effectiveAddress m s) s

/-- Store into a MOV destination (R90). An immediate is no destination (R75); the state is then as it was. -/
def writeOperand (w : Width) (dst : Operand) (v : Word) (s : State) : State :=
  match dst with
  | .reg d => writeReg d v s
  | .mem m => writeSized w (effectiveAddress m s) v s
  | .imm8 _ => s
  | .imm16 _ => s

end Sys2Proof.Machine
end

