-- ==== Sys2Proof/Machine/Move.lean ====
section
/-! DEFINITION. MOV (spec/40_move.md R90 to R93). -/

namespace Sys2Proof.Machine

/-- The address of the instruction that is running: PC is already past its bytes (R18, log 18). -/
def addressOf (i : Instr) (s : State) : Word := s.pc - BitVec.ofNat 16 (i.length s.cfg)

/-- MOV (R90): copy the second operand into the first, in the width of R91. Every register is read before anything is written. F is
unchanged (D11). A pair R75 does not admit is `IllegalInstruction` (log 19). -/
def execMov (dst src : Operand) (s : State) : Host.Outcome State Fault Refusal :=
  match movWidth dst src with
  | none => .fault (.illegalInstruction (addressOf (.mov dst src) s))
  | some w =>
    let (v, s1) := readOperand w src s
    .next (writeOperand w dst v s1)

end Sys2Proof.Machine
end

