-- ==== Sys2Proof/Machine/Control.lean ====
section
/-! DEFINITION. Calls, software interrupts and returns (spec/42_call_int.md R120 to R123). -/

namespace Sys2Proof.Machine

/-- CALL (R120): push the address of the next instruction, jump to the target. -/
def execCall (target : Word) (s : State) : Host.Outcome State Fault Refusal := .next ((pushPc s).setPc target)

/-- RET (R121). -/
def execRet (s : State) : Host.Outcome State Fault Refusal := .next (popPc s)

/-- INT (R122): enter the handler of a vector 0 to 7, whether F.I is set or not (D19); a larger number is `IllegalVector` (D20).
The pending bits are not touched (R144). -/
def execInt (n : Byte) (s : State) : Host.Outcome State Fault Refusal :=
  if h : n.toNat < 8 then .next (enterHandler ⟨n.toNat, h⟩ s)
  else .fault (.illegalVector (addressOf (.int n) s) n)

/-- IRET (R123). -/
def execIret (s : State) : Host.Outcome State Fault Refusal := .next (returnFromHandler s)

end Sys2Proof.Machine
end

