-- ==== Sys2Proof/Machine/Stack.lean ====
section
/-! DEFINITION. The stack instructions (spec/41_stack.md R102 to R107). -/

namespace Sys2Proof.Machine

/-- The registers PUSHA pushes, in order: R0-R9, P0-P9 (R104). -/
def pushaOrder : List Reg :=
  [.r 0, .r 1, .r 2, .r 3, .r 4, .r 5, .r 6, .r 7, .r 8, .r 9, .p 0, .p 1, .p 2, .p 3, .p 4, .p 5, .p 6, .p 7, .p 8, .p 9]

/-- Push a list of registers, the first one first. -/
def pushRegs : List Reg → State → State
  | [], s => s
  | r :: rs, s => pushRegs rs (pushReg r s)

/-- Pop a list of registers, the first one first. -/
def popRegs : List Reg → State → State
  | [], s => s
  | r :: rs, s => popRegs rs (popReg r s)

/-- PUSH (R102). -/
def execPush (r : Reg) (s : State) : Host.Outcome State Fault Refusal := .next (pushReg r s)

/-- POP (R103). -/
def execPop (r : Reg) (s : State) : Host.Outcome State Fault Refusal := .next (popReg r s)

/-- PUSHA (R104): the twenty registers as PUSH does it, then the flags. -/
def execPusha (s : State) : Host.Outcome State Fault Refusal := .next (pushFlags (pushRegs pushaOrder s))

/-- POPA (R105): the flags, then P9-P0, R9-R0 as POP does it. -/
def execPopa (s : State) : Host.Outcome State Fault Refusal := .next (popRegs pushaOrder.reverse (popFlags s))

/-- PUSHF (R106). -/
def execPushf (s : State) : Host.Outcome State Fault Refusal := .next (pushFlags s)

/-- POPF (R107). -/
def execPopf (s : State) : Host.Outcome State Fault Refusal := .next (popFlags s)

end Sys2Proof.Machine
end

