-- ==== Sys2Proof/Machine/Fetch.lean ====
section
/-! DEFINITION. Fetching an instruction (spec/10_state.md R18, spec/30_encoding.md R66): single-byte reads from PC on, decoding, and
the advance of PC before the instruction's own effect. -/

namespace Sys2Proof.Machine

/-- The longest instruction (R61). -/
def maxLength : Nat := 8

/-- The instruction at PC and the state in which it runs: its `L` bytes have been read (a byte in `IO_REGION` is a draw, log 17)
and PC is `a + L` (R18). None where the bytes are no instruction (R76). -/
def fetch (s : State) : Option (Instr × State) :=
  match decode s.cfg (readBytes maxLength s.pc s).1 with
  | .error _ => none
  | .ok (i, rest) =>
    let l := maxLength - rest.length
    let s1 := (readBytes l s.pc s).2
    some (i, s1.setPc (s.pc + BitVec.ofNat 16 l))

end Sys2Proof.Machine
end

