-- ==== Sys2Proof/Machine/Step.lean ====
section
/-! DEFINITION. One step of the machine: what happens at one instruction boundary (spec/60_exceptions.md R146), and the host's way to
place an instruction where the next step fetches it. -/

namespace Sys2Proof.Machine

/-- Fetch, decode and run one instruction (R18, R66). -/
def runInstruction (s : State) : Host.Outcome State Fault Refusal :=
  match fetch s with
  | none => .fault (.illegalInstruction s.pc)
  | some (i, s1) => exec i s1

/-- One boundary (R144, R146): the devices move; then, if F.I = 1 and a request is pending, the CPU takes the interrupt instead of
fetching; otherwise it runs one instruction. Log 21. -/
def step (s : State) : Host.Outcome State Fault Refusal :=
  let s1 := devicesMove s
  match acceptedVector s1 with
  | some v => .next (takeInterrupt v s1)
  | none => runInstruction s1

/-- `s` with the bytes of a row's word (log 13) stored where the next step fetches. Nothing else changes, but for what would keep
the next step from fetching there: an interrupt that would be taken at this boundary is dropped, and device addresses do not
hide the bytes. -/
def State.withFetchWord (s : State) (nbits w : Nat) : State :=
  let bytes := tableBytes nbits w
  let loaded := { s with mem := s.mem.writeBytes s.pc bytes }
  let ram :=
    if (List.range maxLength).any (fun k => s.isIo (s.pc + BitVec.ofNat 16 k)) then
      { loaded with cfg := { s.cfg with ioRegion := [] } }
    else loaded
  match acceptedVector (devicesMove s) with
  | none => ram
  | some _ => { ram with irq := .replicate 8 false, agenda := Agenda.silent }

end Sys2Proof.Machine
end

