-- ==== Sys2Proof/Machine/Assembler.lean ====
section
/-! DEFINITION. The assembler-level transcriber (spec/30_encoding.md R70, R78; spec/60_exceptions.md R140): a source line as a mnemonic and
its operands, turned into bytes, or refused by name where it uses a byte view. The step never calls it. -/

namespace Sys2Proof.Machine

/-- An operand of a source line (R78): one that has an encoding, or a byte view, which has none (R13, R70). -/
inductive AsmOperand where
  | operand (o : Operand)
  | highByte (n : Fin 10)
  | lowByte (n : Fin 10)
deriving DecidableEq, Repr

/-- A source line: its text, its mnemonic and its operands, destination first (R78). -/
structure AsmLine where
  text : String
  mnemonic : Mnemonic
  operands : List AsmOperand
deriving DecidableEq, Repr

/-- The encodable operands, or none if one of them is a byte view. -/
def encodableOperands : List AsmOperand → Option (List Operand)
  | [] => some []
  | .operand o :: rest => (encodableOperands rest).map (o :: ·)
  | .highByte _ :: _ => none
  | .lowByte _ :: _ => none

/-- The bytes of a source line: `ByteViewNotEncodable` for a line with `Pn:` or `:Pn` (R70), a refusal for a form R75 does not
admit, else the encoding. -/
def transcribe (cfg : Config) (line : AsmLine) : Host.Outcome (List Byte) Fault Refusal :=
  match encodableOperands line.operands with
  | none => .refused (.byteViewNotEncodable line.text)
  | some ops =>
    match admittedForm line.mnemonic ops with
    | none => .refused (.lineNotAdmitted line.text)
    | some i => .next (encode cfg i)

end Sys2Proof.Machine
end

