-- ==== Sys2Proof/Safety.lean ====
section
/-! DEFINITION. What claims speak of: the invariant of the machine, the end of a run (spec/70_reset_and_hazards.md R177), and the
RAM-only condition on the addresses an instruction reads or writes (spec/20_memory.md R49), and the coming boundaries of an
agenda (R176). -/

namespace Sys2Proof

/-- The agenda when `k` boundaries have passed. -/
def Agenda.after (a : Agenda) : Nat → Agenda
  | 0 => a
  | k + 1 => (a.after k).next.2

/-- The events an agenda has for its `k`-th coming boundary, the next one being the 0th. -/
def Agenda.movesAt (a : Agenda) (k : Nat) : List DeviceEvent := (a.after k).next.1

end Sys2Proof

namespace Sys2Proof.Machine

/-- The `n` addresses from `a` on (modulo 2^16) are RAM, none in `IO_REGION` (R49). -/
abbrev State.ramAt (s : State) (a : Word) (n : Nat) : Prop :=
  ∀ k ∈ List.range n, s.isIo (a + BitVec.ofNat 16 k) = false

/-- The big-endian 16-bit value that lies in RAM at `a` and `a + 1` (R43). -/
def State.ramWord (s : State) (a : Word) : Word := wordOf (s.mem.read a) (s.mem.read (a + 1))

/-- The addresses of an `n`-byte access at `a`, modulo 2^16 (R42). -/
abbrev touches (a : Word) (n : Nat) (x : Word) : Prop := ∃ k ∈ List.range n, x = a + BitVec.ofNat 16 k

/-! ### What a read sees (R27, R43) -/

/-- The byte a read of `a` sees after `k` earlier draws of the same instruction: RAM, or a draw in `IO_REGION` (R43). -/
def State.byteSeen (s : State) (a : Word) (k : Nat) : Byte :=
  if s.isIo a then Config.freeByte (s.draws + k) else s.mem.read a

/-- How many values a read of the byte at `a` draws. -/
def State.ioCount (s : State) (a : Word) : Nat := if s.isIo a then 1 else 0

/-- The 16-bit value a read at `a` sees (R43): the byte at `a` is bits 15..8. -/
def State.wordSeen (s : State) (a : Word) : Word := wordOf (s.byteSeen a 0) (s.byteSeen (a + 1) (s.ioCount a))

/-- How many values a 16-bit read at `a` draws. -/
def State.wordDraws (s : State) (a : Word) : Nat := s.ioCount a + s.ioCount (a + 1)

/-- The value a read of a register sees: a draw for TT (R27), else what it holds. -/
def State.regSeen (s : State) (r : Reg) : Word := if r = .tt then Config.freeWord s.draws else s.stored r

/-- How many values a read of a register draws. -/
def regDraws (r : Reg) : Nat := if r = .tt then 1 else 0

/-! ### What a store does (R44, R49) -/

/-- From `s` to `t` exactly the byte `b` is stored at `a`: into RAM, or to the device that owns `a`. -/
def byteStored (s t : State) (a : Word) (b : Byte) : Prop :=
  (∀ x, t.mem.read x = if x = a ∧ s.isIo a = false then b else s.mem.read x) ∧
  t.deviceWrites = (if s.isIo a then [(a.toNat, b)] else []) ++ s.deviceWrites

/-- From `s` to `t` exactly the 16-bit value `v` is stored at `a`, `v[15:8]` at `a` and `v[7:0]` at `a + 1`, each byte into RAM or to
the device that owns its address. -/
def wordStored (s t : State) (a v : Word) : Prop :=
  (∀ x, t.mem.read x =
    if x = a + 1 ∧ s.isIo (a + 1) = false then loByte v else if x = a ∧ s.isIo a = false then hiByte v else s.mem.read x) ∧
  t.deviceWrites =
    (if s.isIo (a + 1) then [((a + 1).toNat, loByte v)] else []) ++ (if s.isIo a then [(a.toNat, hiByte v)] else []) ++
      s.deviceWrites

/-- Memory and the devices are not written. -/
def nothingStored (s t : State) : Prop := t.mem = s.mem ∧ t.deviceWrites = s.deviceWrites

/-! ### Frames -/

/-- Every register with an operand code holds what it held, but for the listed ones (R68: R0-R9, P0-P9, VX, VY, VM, VL, TT, TM, TC,
TS). -/
def regsSameExcept (ds : List Reg) (s t : State) : Prop := ∀ q : Reg, q ∉ ds → t.stored q = s.stored q

/-- The pending bits, the keyboard, the devices' agenda and the parameters are as they were. -/
def outsideSame (s t : State) : Prop :=
  t.irq = s.irq ∧ t.keyboard = s.keyboard ∧ t.agenda = s.agenda ∧ t.cfg = s.cfg

/-- The state after `n` more draws. -/
def State.afterDraws (s : State) (n : Nat) : State := { s with draws := s.draws + n }

/-- A handler has been entered for vector `v` (R122, R149): SP is 4 lower; the old PC lies at SP + 2 and the old F, zero-extended, at
SP; F is as before but for I, which is 0; PC is the vector's target (R148), read after the two pushes; no other register and no
other byte of memory has changed. Where the stack or the table entry lies in `IO_REGION` the device has the bytes, or the target
is a draw (R49). -/
def handlerEntered (s t : State) (v : Vec) : Prop :=
  t.sp = s.sp - 4 ∧
  regsSameExcept [.sp] s t ∧
  (∀ x : Flag, flagOf t.f x = if x = .i then false else flagOf s.f x) ∧
  (∀ x, ¬ touches (s.sp - 4) 4 x → t.mem.read x = s.mem.read x) ∧
  (s.ramAt (s.sp - 4) 4 →
    t.ramWord (s.sp - 2) = s.pc ∧ t.ramWord (s.sp - 4) = s.f.setWidth 16 ∧ t.deviceWrites = s.deviceWrites) ∧
  (s.cfg.vectorFetch = .executeSlot → t.pc = 0x0100 + 4 * BitVec.ofNat 16 v.val) ∧
  (s.cfg.vectorFetch = .addressInSlot → s.ramAt (0x0100 + 4 * BitVec.ofNat 16 v.val) 2 →
    t.pc = t.ramWord (0x0100 + 4 * BitVec.ofNat 16 v.val)) ∧
  t.keyboard = s.keyboard ∧ t.agenda = s.agenda ∧ t.cfg = s.cfg

/-! ### What an instruction may change (R15, R48) -/

/-- The registers an instruction writes as destinations (R15); SP, which every stack instruction also updates, apart. -/
def destinations : Instr → List Reg
  | .mov (.reg d) _ => [d]
  | .mov (.mem _) _ => []
  | .mov (.imm8 _) _ => []
  | .mov (.imm16 _) _ => []
  | .push _ => []
  | .pop r => [r]
  | .pusha => []
  | .popa => pushaOrder
  | .pushf => []
  | .popf => []
  | .call _ => []
  | .ret => []
  | .int _ => []
  | .iret => []

/-- Whether an instruction updates SP as a stack instruction (R12). -/
def usesStack : Instr → Bool
  | .mov _ _ => false
  | .push _ => true
  | .pop _ => true
  | .pusha => true
  | .popa => true
  | .pushf => true
  | .popf => true
  | .call _ => true
  | .ret => true
  | .int _ => true
  | .iret => true

/-- The bytes of a width. -/
def widthBytes : Width → Nat
  | .byte => 1
  | .word => 2

/-- The lowest address an instruction stores to and how many bytes it stores (R48); 0 bytes where it stores nothing. -/
def storeRange (i : Instr) (s : State) : Word × Nat :=
  match i with
  | .mov (.mem m) (.reg r) => (effectiveAddress m s, widthBytes r.width)
  | .mov (.mem m) (.imm8 _) => (effectiveAddress m s, 1)
  | .mov (.mem m) (.imm16 _) => (effectiveAddress m s, 2)
  | .mov (.mem _) (.mem _) => (0, 0)
  | .mov (.reg _) _ => (0, 0)
  | .mov (.imm8 _) _ => (0, 0)
  | .mov (.imm16 _) _ => (0, 0)
  | .push _ => (s.sp - 2, 2)
  | .pop _ => (0, 0)
  | .pusha => (s.sp - 42, 42)
  | .popa => (0, 0)
  | .pushf => (s.sp - 2, 2)
  | .popf => (0, 0)
  | .call _ => (s.sp - 2, 2)
  | .ret => (0, 0)
  | .int _ => (s.sp - 4, 4)
  | .iret => (0, 0)

/-- The mode bytes the table admits for a mnemonic (R75, spec/opcode_table.json). -/
def admittedModes : Mnemonic → List Byte
  | .mov => [0x00, 0x04, 0x08, 0x8C, 0x0C, 0x4C, 0x83, 0x87, 0x8B, 0x03, 0x07, 0x0B, 0x43, 0x47, 0x4B]
  | .push => [0x00]
  | .pop => [0x00]
  | .call => [0x02]
  | .int => [0x01]
  | .pusha => [0x00]
  | .popa => [0x00]
  | .pushf => [0x00]
  | .popf => [0x00]
  | .ret => [0x00]
  | .iret => [0x00]

/-- The invariant: memory in its canonical form, at most 16 keys buffered (R153), and no pending bit of a vector outside
`IRQ_SOURCES` (R144). -/
abbrev State.Inv (s : State) : Prop :=
  s.mem.wf ∧ s.keyboard.length ≤ keyboardDepth ∧ ∀ v : Vec, s.irq.get v = true → v ∈ s.cfg.irqSources

/-- The run has ended (R177): at an instruction boundary with no interrupt to take, PC equals `HALT_PC`. The hardware does not stop
there; a claim that speaks of a run's end asks for this of the state. The devices' moves of the boundary come first (R146). -/
def State.runEnds (s : State) : Bool :=
  let s1 := devicesMove s
  acceptedVector s1 == none && s1.cfg.haltPc == some s1.pc

end Sys2Proof.Machine
end

