-- ==== Sys2Proof/Certificates/Slice0/Obligations.lean ====
section
/-! DEFINITION. The statements for the provers. Each docstring names the rule of spec/ it formalises; where a clause rests on a decision
the spec marks as its own (D<n> of spec/92_eei_decisions.md) or on a log entry of the model, it says so. -/

open Sys2Proof Sys2Proof.Machine

/-! ### Encoding -/

/-- Decoding the encoding of a well-formed instruction gives it back, with every operand at every value, and leaves the bytes after
it (spec/30_encoding.md sections 1, 2, 5; D1, D3). -/
def Obligations.DecodeOfEncodeIsTheInstruction : Prop :=
  ∀ (cfg : Config) (i : Instr) (rest : List Byte), cfg.OpcodesLegal → i.WellFormed = true →
    decode cfg (encode cfg i ++ rest) = .ok (i, rest)

/-- Bytes that decode are the encoding of a well-formed instruction: each instruction has one spelling (spec/30_encoding.md sections 1,
2, 5; D2, D3). -/
def Obligations.DecodedBytesAreTheEncoding : Prop :=
  ∀ (cfg : Config) (bs : List Byte) (i : Instr) (rest : List Byte), decode cfg bs = .ok (i, rest) →
    i.WellFormed = true ∧ bs = encode cfg i ++ rest

/-- A mode byte can follow a mnemonic's opcode byte exactly when the table of admitted forms lists it (spec/30_encoding.md section 5,
the spec's decisions D2, D3, D7). -/
def Obligations.ModeBytesAreTheAdmittedOnes : Prop :=
  ∀ (cfg : Config) (m : Mnemonic) (mode : Byte), cfg.OpcodesLegal → cfg.zeroOperandModeByte = .present →
    ((∃ data i rest, decode cfg (cfg.opcode m :: mode :: data) = .ok (i, rest) ∧ i.mnemonic = m) ↔ mode ∈ admittedModes m)

/-- R62: the mode byte is DIR, X, m3, m2, m1 from bit 7 to bit 0; 0x08 is m1 = 00, m2 = 10, and 0x00 has m1 = 00. -/
def Obligations.ModeByteLayout : Prop :=
  (∀ m : Byte,
    modeByte (modeDir m) (modeX m) (modeM3 m) (modeM2 m) (modeM1 m) = m ∧
    m.toNat = 128 * (modeDir m).toNat + 64 * (modeX m).toNat + 16 * (modeM3 m).bits.toNat + 4 * (modeM2 m).bits.toNat +
      (modeM1 m).bits.toNat) ∧
  (modeM1 0x08).bits = 0b00#2 ∧ (modeM2 0x08).bits = 0b10#2 ∧ (modeM1 0x00).bits = 0b00#2

/-- R68: the register codes and widths; 28 codes are defined, every other byte names no register. -/
def Obligations.RegisterCodeTable : Prop :=
  (∀ n : Fin 10, (Reg.r n).code.toNat = 0xA9 + n.val ∧ (Reg.r n).width = .byte) ∧
  (∀ n : Fin 10, (Reg.p n).code.toNat = 0xB3 + n.val ∧ (Reg.p n).width = .word) ∧
  (Reg.vm.code = 0x5F ∧ Reg.vm.width = .byte) ∧ (Reg.vl.code = 0x60 ∧ Reg.vl.width = .byte) ∧
  (Reg.tt.code = 0x61 ∧ Reg.tt.width = .word) ∧ (Reg.tm.code = 0x62 ∧ Reg.tm.width = .word) ∧
  (Reg.tc.code = 0x63 ∧ Reg.tc.width = .byte) ∧ (Reg.ts.code = 0x64 ∧ Reg.ts.width = .byte) ∧
  (Reg.vx.code = 0xBD ∧ Reg.vx.width = .byte) ∧ (Reg.vy.code = 0xBE ∧ Reg.vy.width = .byte) ∧
  Reg.sp.code = 0xBB ∧ Reg.fp.code = 0xBC ∧
  (∀ r : Reg, Reg.ofCode r.code = some r) ∧
  (∀ c : Byte, (∀ r : Reg, r.code ≠ c) → Reg.ofCode c = none) ∧
  ((List.range 256).filter fun c => (Reg.ofCode (BitVec.ofNat 8 c)).isSome).length = 28

/-- Words written out from the spec's encodings decode to what they stand for, for every legal choice of the open opcode bytes
(spec/95_test_vectors.md: S1, S2, and V3, V5, V6, V7, V9, V11, V12, V13 of section 2.1; the POP word is V39 of section 2.3; the clauses
for RET without and with a mode byte are spec/30_encoding.md section 4, D1). -/
def Obligations.SpecExamplesDecode : Prop :=
  ∀ cfg : Config, cfg.OpcodesLegal →
    decode cfg [0x06, 0x08, 0xA9, 0x12, 0x34] = .ok (.mov (.reg (.r 0)) (.imm16 0x1234), []) ∧
    decode cfg [0x2E, 0x00, 0xB3] = .ok (.push (.p 0), []) ∧
    decode cfg [0x06, 0x00, 0xBC, 0xBB] = .ok (.mov (.reg .fp) (.reg .sp), []) ∧
    decode cfg [0x06, 0x8C, 0xAA, 0x30, 0x01] = .ok (.mov (.reg (.r 1)) (.mem (.direct 0x3001)), []) ∧
    decode cfg [0x06, 0x0C, 0xAB, 0xB3] = .ok (.mov (.reg (.r 2)) (.mem (.indirect (.p 0))), []) ∧
    decode cfg [0x06, 0x4C, 0xB4, 0xB3, 0x04] = .ok (.mov (.reg (.p 1)) (.mem (.indexed (.p 0) 0x04)), []) ∧
    decode cfg [0x06, 0x8B, 0x20, 0x00, 0x12, 0x34] = .ok (.mov (.mem (.direct 0x2000)) (.imm16 0x1234), []) ∧
    decode cfg [cfg.opcodes.pop, 0x00, 0xB4] = .ok (.pop (.p 1), []) ∧
    decode cfg [cfg.opcodes.call, 0x02, 0x03, 0x00] = .ok (.call 0x0300, []) ∧
    decode cfg [cfg.opcodes.int, 0x01, 0x03] = .ok (.int 3, []) ∧
    (cfg.zeroOperandModeByte = .present → decode cfg [cfg.opcodes.ret, 0x00] = .ok (.ret, [])) ∧
    (cfg.zeroOperandModeByte = .absent → decode cfg [cfg.opcodes.ret] = .ok (.ret, []))

/-- An opcode byte, a register code or a base-register code outside the tables is refused (spec/30_encoding.md section 6, conditions (1)
to (3); the spec's decision D4). -/
def Obligations.CodesOutsideTheTablesAreRefused : Prop :=
  ∀ (cfg : Config), cfg.OpcodesLegal →
    (∀ opc rest, (∀ m : Mnemonic, cfg.opcode m ≠ opc) → decode cfg (opc :: rest) = .error (.unknownOpcode opc)) ∧
    (∀ m mode c rest, 1 ≤ m.operandCount → modeM1 mode = .reg → Reg.ofCode c = none →
      decode cfg (cfg.opcode m :: mode :: c :: rest) = .error (.unknownRegister c)) ∧
    (∀ mode d c rest, modeM1 mode = .reg → modeM2 mode = .reg → (Reg.ofCode d).isSome = true → Reg.ofCode c = none →
      decode cfg (cfg.opcode .mov :: mode :: d :: c :: rest) = .error (.unknownRegister c)) ∧
    (∀ mode c rest, modeM1 mode = .mem → modeDir mode = false → Base.ofCode c = none →
      decode cfg (cfg.opcode .mov :: mode :: c :: rest) = .error (.unknownBase c)) ∧
    (∀ mode d c rest, modeM1 mode = .reg → modeM2 mode = .mem → modeDir mode = false → (Reg.ofCode d).isSome = true →
      Base.ofCode c = none → decode cfg (cfg.opcode .mov :: mode :: d :: c :: rest) = .error (.unknownBase c))

/-- The length of an instruction is 2 plus the sizes of its operands' data, at least 2 and in scope at most 6; with
`ZERO_OPERAND_MODE_BYTE = absent` an instruction without operands is 1 byte long (spec/30_encoding.md sections 2 and 4; D1). -/
def Obligations.LengthOfAnInstruction : Prop :=
  ∀ (cfg : Config) (i : Instr), i.WellFormed = true →
    ((cfg.zeroOperandModeByte = .present ∨ i.operands ≠ []) →
      i.length cfg =
        2 + (i.operands.map fun o => o.mode.size (i.operands.any Operand.dir) (i.operands.any Operand.idx)).sum ∧
      2 ≤ i.length cfg ∧ i.length cfg ≤ 6) ∧
    (cfg.zeroOperandModeByte = .absent → i.operands = [] → i.length cfg = 1)

/-! ### The step -/

/-- A step runs the decoded instruction: when the devices have moved, no interrupt is accepted and the bytes read from PC decode to
`i`, the step is `exec i` with PC moved past the instruction's bytes and the draws of its bytes made (spec/10_state.md section 2,
spec/60_exceptions.md section 3). The order inside a step is log 21; that an instruction byte in `IO_REGION` is a draw, once for each
byte of the instruction and with no device effect at once, is the model's choice (logs 11 and 17). -/
def Obligations.StepRunsTheDecodedInstruction : Prop :=
  ∀ (s : State) (i : Instr) (rest : List Byte),
    acceptedVector (devicesMove s) = none →
    decode (devicesMove s).cfg (readBytes 8 (devicesMove s).pc (devicesMove s)).1 = .ok (i, rest) →
    step s = exec i
      ((readBytes (8 - rest.length) (devicesMove s).pc (devicesMove s)).2.setPc
        ((devicesMove s).pc + BitVec.ofNat 16 (8 - rest.length)))

/-- When the encoding of a well-formed instruction lies in RAM at PC and no interrupt is accepted, the step is `exec` of it with PC at
the next instruction, and nothing is drawn (spec/10_state.md section 2, spec/30_encoding.md section 2). -/
def Obligations.StepRunsTheEncodedInstruction : Prop :=
  ∀ (s s1 : State) (i : Instr), s1 = devicesMove s → acceptedVector s1 = none → s1.cfg.OpcodesLegal → i.WellFormed = true →
    s1.ramAt s1.pc (i.length s1.cfg) →
    (∀ k : Fin (encode s1.cfg i).length, s1.mem.read (s1.pc + BitVec.ofNat 16 k.val) = (encode s1.cfg i).get k) →
    step s = exec i (s1.setPc (s1.pc + BitVec.ofNat 16 (i.length s1.cfg)))

/-- A fetch that gives an instruction gives a well-formed one, moves PC past exactly its bytes, and changes nothing but PC and the count
of draws (spec/10_state.md section 2). Where instruction bytes lie in `IO_REGION`, that each of them is a draw and that the fetch has no
device effect at once, the device's side effect being a later event of the agenda, are the model's choices (logs 11 and 17). -/
def Obligations.FetchAdvancesPastTheInstruction : Prop :=
  ∀ (s s1 : State) (i : Instr), fetch s = some (i, s1) →
    i.WellFormed = true ∧ s1 = { s with pc := s.pc + BitVec.ofNat 16 (i.length s.cfg), draws := s1.draws }

/-- Bytes at PC that are no instruction stop the run with `IllegalInstruction` and PC's address (spec/60_exceptions.md section 1; D4). -/
def Obligations.UndecodableBytesStop : Prop :=
  ∀ (s : State) (e : DecodeError), acceptedVector (devicesMove s) = none →
    decode (devicesMove s).cfg (readBytes 8 (devicesMove s).pc (devicesMove s)).1 = .error e →
    step s = .fault (.illegalInstruction (devicesMove s).pc)

/-- An interrupt that is accepted at the boundary is taken instead of fetching (spec/60_exceptions.md section 3; D22). -/
def Obligations.AcceptedInterruptIsTaken : Prop :=
  ∀ (s : State) (v : Vec), acceptedVector (devicesMove s) = some v → step s = .next (takeInterrupt v (devicesMove s))

/-- What is accepted: with F.I = 1 the pending vector of the lowest number, with F.I = 0 or nothing pending none (spec/60_exceptions.md
section 3; D22, D25). -/
def Obligations.AcceptedVectorIsTheHighestPriorityPending : Prop :=
  ∀ s : State,
    (∀ v : Vec, acceptedVector s = some v ↔
      flagOf s.f .i = true ∧ s.irq.get v = true ∧ ∀ u : Vec, u < v → s.irq.get u = false) ∧
    (acceptedVector s = none ↔ flagOf s.f .i = false ∨ ∀ v : Vec, s.irq.get v = false)

/-- While F.I = 0 no interrupt is taken, whatever the devices request: the step runs the instruction at PC (spec/10_state.md section 3,
spec/60_exceptions.md section 6). -/
def Obligations.NoInterruptWhileDisabled : Prop :=
  ∀ s : State, flagOf s.f .i = false → step s = runInstruction (devicesMove s)

/-- Hardware interrupt entry (spec/60_exceptions.md section 4; D16, D21, D23, D24): the handler is entered, and the request is cleared under
`IRQ_ACK = clear-on-entry` and left to the device under `device-held`. The values of the stack entries and of a table entry are stated
for RAM and left out for `IO_REGION`; that a stack store or a table read there leaves the keyboard and the pending bits alone at once is
the model's choice (a store log 12, a read log 11). -/
def Obligations.InterruptEntryResult : Prop :=
  ∀ (v : Vec) (s : State), handlerEntered s (takeInterrupt v s) v ∧
    (s.cfg.irqAck = .clearOnEntry → ∀ u : Vec, (takeInterrupt v s).irq.get u = if u = v then false else s.irq.get u) ∧
    (s.cfg.irqAck = .deviceHeld → (takeInterrupt v s).irq = s.irq)

/-- The devices may request any vector of `IRQ_SOURCES` and give TT any value at any boundary, whatever the state (spec/60_exceptions.md
sections 2 and 5; D26, D37; the agenda is log 9). -/
def Obligations.DevicesMayMoveAtAnyBoundary : Prop :=
  ∀ (s : State) (v : Vec) (count : Word), v ∈ s.cfg.irqSources →
    ∃ agenda : Agenda,
      (devicesMove { s with agenda := agenda }).irq.get v = true ∧ (devicesMove { s with agenda := agenda }).tt = count

/-- The devices may go on for ever (spec/70_reset_and_hazards.md section 4, spec/60_exceptions.md section 5; D37; the agenda is log 9). Every
step takes one boundary of the agenda; an agenda has the moves written out in it, then those of its recurrence at every later boundary:
a cycle over and over again, or the free schedule, of which nothing is said. So a device can request a vector of `IRQ_SOURCES` at
every boundary without end: the request is pending at this boundary, and the agenda is the same at the next. -/
def Obligations.DevicesMayMoveForEver : Prop :=
  (∀ s t : State, step s = .next t → t.agenda = s.agenda.next.2) ∧
  (∀ (ahead : List (List DeviceEvent)) (recurrence : Recurrence) (k : Nat),
    (∀ h : k < ahead.length, (⟨ahead, recurrence⟩ : Agenda).movesAt k = ahead[k]) ∧
    (⟨ahead, recurrence⟩ : Agenda).movesAt (ahead.length + k) = (⟨[], recurrence⟩ : Agenda).movesAt k) ∧
  (∀ (moves : List (List DeviceEvent)) (k : Nat) (h : k % moves.length < moves.length),
    (⟨[], .cycle moves⟩ : Agenda).movesAt k = moves[k % moves.length]) ∧
  (∀ n k : Nat, (⟨[], .free n⟩ : Agenda).movesAt k = Config.freeMoves (n + k)) ∧
  (∀ (s : State) (v : Vec), v ∈ s.cfg.irqSources → s.agenda = ⟨[], .cycle [[.request v]]⟩ →
    (devicesMove s).irq.get v = true ∧ ∀ t, step s = .next t → t.agenda = s.agenda ∧ t.cfg = s.cfg)

/-- The devices change only TT, the pending bits, the keyboard's buffer and their own agenda; they never write RAM or any other
register. Under `clear-on-entry` they never withdraw a request, and they never request a vector outside `IRQ_SOURCES`
(spec/20_memory.md section 8, spec/60_exceptions.md sections 2 and 5; D24, D26, D31). -/
def Obligations.DeviceMovesTouchOnlyDeviceState : Prop :=
  ∀ s : State, ∃ t : State, devicesMove s = t ∧
    regsSameExcept [.tt] s t ∧ t.pc = s.pc ∧ t.f = s.f ∧ nothingStored s t ∧ t.draws = s.draws ∧ t.cfg = s.cfg ∧
    (s.cfg.irqAck = .clearOnEntry → ∀ v : Vec, s.irq.get v = true → t.irq.get v = true) ∧
    (∀ v : Vec, t.irq.get v = true → s.irq.get v = true ∨ v ∈ s.cfg.irqSources)

/-- Under `clear-on-entry` a request stays pending until it is taken (spec/60_exceptions.md section 2; D24). -/
def Obligations.RequestStaysPendingUntilTaken : Prop :=
  ∀ (s t : State) (v : Vec), s.cfg.irqAck = .clearOnEntry → s.irq.get v = true → acceptedVector (devicesMove s) ≠ some v →
    step s = .next t → t.irq.get v = true

/-! ### MOV -/

/-- The effective address of the three memory operand forms: modulo 2^16, an 8-bit base zero-extended, the offset extended as
`IDX_OFFSET_EXT` says (spec/30_encoding.md section 2; D8, D9). -/
def Obligations.EffectiveAddressOfEachForm : Prop :=
  ∀ s : State,
    (∀ a, effectiveAddress (.direct a) s = a) ∧
    (∀ n, effectiveAddress (.indirect (.r n)) s = (s.r.get n).setWidth 16) ∧
    (∀ n, effectiveAddress (.indirect (.p n)) s = s.p.get n) ∧
    (s.cfg.idxOffsetExt = .zext → ∀ n o,
      effectiveAddress (.indexed (.r n) o) s = (s.r.get n).setWidth 16 + o.setWidth 16 ∧
      effectiveAddress (.indexed (.p n) o) s = s.p.get n + o.setWidth 16) ∧
    (s.cfg.idxOffsetExt = .sext → ∀ n o,
      effectiveAddress (.indexed (.r n) o) s = (s.r.get n).setWidth 16 + o.signExtend 16 ∧
      effectiveAddress (.indexed (.p n) o) s = s.p.get n + o.signExtend 16)

/-- MOV of a register or an immediate to a register completes: the destination holds the source, zero-extended or cut to its low byte;
a source of TT is a draw; no flag and nothing else changes (spec/40_move.md; D11, D12, D13, D29; the draw is log 11). -/
def Obligations.MovToRegisterFromRegisterOrImmediate : Prop :=
  ∀ (d : Reg) (s : State),
    (∀ q : Reg, ∃ t, exec (.mov (.reg d) (.reg q)) s = .next t ∧
      (d.width = .word → t.stored d = if q = .tt then Config.freeWord s.draws else s.stored q) ∧
      (d.width = .byte →
        t.stored d = ((if q = .tt then Config.freeWord s.draws else s.stored q).setWidth 8).setWidth 16) ∧
      regsSameExcept [d] s t ∧ t.pc = s.pc ∧ t.f = s.f ∧ nothingStored s t ∧ outsideSame s t ∧
      t.draws = s.draws + if q = .tt then 1 else 0) ∧
    (∀ v : Byte, ∃ t, exec (.mov (.reg d) (.imm8 v)) s = .next t ∧
      t.stored d = v.setWidth 16 ∧
      regsSameExcept [d] s t ∧ t.pc = s.pc ∧ t.f = s.f ∧ nothingStored s t ∧ outsideSame s t ∧ t.draws = s.draws) ∧
    (∀ v : Word, ∃ t, exec (.mov (.reg d) (.imm16 v)) s = .next t ∧
      t.stored d = (if d.width = .byte then (v.setWidth 8).setWidth 16 else v) ∧
      regsSameExcept [d] s t ∧ t.pc = s.pc ∧ t.f = s.f ∧ nothingStored s t ∧ outsideSame s t ∧ t.draws = s.draws)

/-- MOV of memory to a register completes: it reads as many bytes as the destination is wide, big-endian, at the effective address
taken from the registers before the write; a byte in `IO_REGION` is a draw (spec/40_move.md, spec/20_memory.md section 2; D12,
D30; the draw is log 11). -/
def Obligations.MovToRegisterFromMemory : Prop :=
  ∀ (d : Reg) (m : MemRef) (s : State), ∃ t, exec (.mov (.reg d) (.mem m)) s = .next t ∧
    (d.width = .byte → t.stored d = (s.byteSeen (effectiveAddress m s) 0).setWidth 16 ∧
      t.draws = s.draws + s.ioCount (effectiveAddress m s)) ∧
    (d.width = .word → t.stored d = s.wordSeen (effectiveAddress m s) ∧
      t.draws = s.draws + s.wordDraws (effectiveAddress m s)) ∧
    regsSameExcept [d] s t ∧ t.pc = s.pc ∧ t.f = s.f ∧ nothingStored s t ∧ outsideSame s t

/-- MOV to memory completes: it stores one byte for an 8-bit register or an imm8, two bytes big-endian for a 16-bit register or an
imm16, at the effective address, and changes no other byte, no register and no flag (spec/40_move.md, spec/20_memory.md section 2;
D11, D12). A source of TT is a draw, log 11; that a byte stored in `IO_REGION` goes to the device and has no effect at once is the
model's choice of log 12. -/
def Obligations.MovToMemory : Prop :=
  ∀ (m : MemRef) (s : State),
    (∀ q : Reg, ∃ t, exec (.mov (.mem m) (.reg q)) s = .next t ∧
      (q.width = .byte → byteStored s t (effectiveAddress m s) ((s.stored q).setWidth 8)) ∧
      (q.width = .word →
        wordStored s t (effectiveAddress m s) (if q = .tt then Config.freeWord s.draws else s.stored q)) ∧
      regsSameExcept [] s t ∧ t.pc = s.pc ∧ t.f = s.f ∧ outsideSame s t ∧ t.draws = s.draws + if q = .tt then 1 else 0) ∧
    (∀ v : Byte, ∃ t, exec (.mov (.mem m) (.imm8 v)) s = .next t ∧ byteStored s t (effectiveAddress m s) v ∧
      regsSameExcept [] s t ∧ t.pc = s.pc ∧ t.f = s.f ∧ outsideSame s t ∧ t.draws = s.draws) ∧
    (∀ v : Word, ∃ t, exec (.mov (.mem m) (.imm16 v)) s = .next t ∧ wordStored s t (effectiveAddress m s) v ∧
      regsSameExcept [] s t ∧ t.pc = s.pc ∧ t.f = s.f ∧ outsideSame s t ∧ t.draws = s.draws)

/-- A MOV operand pair the table does not admit is `IllegalInstruction`, with the address of the instruction (spec/30_encoding.md section
5; D7; log 19: no bytes decode to one). -/
def Obligations.MovOfAFormNotAdmittedStops : Prop :=
  ∀ (dst src : Operand) (s : State), (Instr.mov dst src).WellFormed = false →
    exec (.mov dst src) s = .fault (.illegalInstruction (s.pc - BitVec.ofNat 16 ((Instr.mov dst src).length s.cfg)))

/-! ### The stack -/

/-- PUSH completes: SP is 2 lower and the entry at the new SP is the register, zero-extended to 16 bits; PUSH SP stores the decremented
SP; PUSH TT stores a draw; no flag, no other register and no other byte changes (spec/41_stack.md; D14, D15, D17; the draw is log 11; a
byte stored in `IO_REGION` goes to the device, the model's choice of log 12). -/
def Obligations.PushResult : Prop :=
  ∀ (r : Reg) (s : State), ∃ t, exec (.push r) s = .next t ∧ t.sp = s.sp - 2 ∧
    wordStored s t (s.sp - 2)
      (if r = .sp then s.sp - 2 else if r = .tt then Config.freeWord s.draws else s.stored r) ∧
    regsSameExcept [.sp] s t ∧ t.pc = s.pc ∧ t.f = s.f ∧ outsideSame s t ∧ t.draws = s.draws + if r = .tt then 1 else 0

/-- POP completes: the register holds the entry at SP, or its low byte, and SP is 2 higher; POP SP gives the entry plus 2; nothing is
stored and no flag changes (spec/41_stack.md; D14, D15, D17; an entry byte in `IO_REGION` is a draw, log 11). -/
def Obligations.PopResult : Prop :=
  ∀ (r : Reg) (s : State), ∃ t, exec (.pop r) s = .next t ∧
    (r = .sp → t.sp = s.wordSeen s.sp + 2) ∧
    (r ≠ .sp → t.sp = s.sp + 2 ∧ (r.width = .word → t.stored r = s.wordSeen s.sp) ∧
      (r.width = .byte → t.stored r = ((s.wordSeen s.sp).setWidth 8).setWidth 16)) ∧
    regsSameExcept [r, .sp] s t ∧ t.pc = s.pc ∧ t.f = s.f ∧ nothingStored s t ∧ outsideSame s t ∧
    t.draws = s.draws + s.wordDraws s.sp

/-- PUSHA completes: SP is 42 lower; with the frame in RAM, R0-R9, P0-P9 and F lie in it in that order from the top, the entry of P8
being S - 38; nothing else changes (spec/41_stack.md; D14, D15, D16, D17). The values of a frame that lies wholly or partly in `IO_REGION`
are left out; that a push there changes no RAM outside the frame and leaves the keyboard and the pending bits alone at once is the
model's choice (log 12). -/
def Obligations.PushaResult : Prop :=
  ∀ s : State, ∃ t, exec .pusha s = .next t ∧ t.sp = s.sp - 42 ∧
    (∀ x, ¬ touches (s.sp - 42) 42 x → t.mem.read x = s.mem.read x) ∧
    (s.ramAt (s.sp - 42) 42 →
      (∀ n : Fin 10, t.ramWord (s.sp - BitVec.ofNat 16 (2 + 2 * n.val)) = (s.r.get n).setWidth 16) ∧
      (∀ n : Fin 10, n ≠ 8 → t.ramWord (s.sp - BitVec.ofNat 16 (22 + 2 * n.val)) = s.p.get n) ∧
      t.ramWord (s.sp - 38) = s.sp - 38 ∧
      t.ramWord (s.sp - 42) = s.f.setWidth 16 ∧
      t.deviceWrites = s.deviceWrites) ∧
    regsSameExcept [.sp] s t ∧ t.pc = s.pc ∧ t.f = s.f ∧ outsideSame s t ∧ t.draws = s.draws

/-- POPA completes: F, P9, then P8 from the entries at SP; the entry of P8 plus 2 is where P7-P0 and R9-R0 are read from, and SP ends 36
above that; the high bytes of the R entries and bits 15-12 of the flags entry are ignored; nothing is stored (spec/41_stack.md;
D14, D15, D16). The values are stated for entries in RAM and left out for `IO_REGION`; that reading an entry there leaves the keyboard and
the pending bits alone at once is the model's choice (log 11). -/
def Obligations.PopaResult : Prop :=
  ∀ s : State, ∃ t, exec .popa s = .next t ∧
    (s.ramAt s.sp 6 → s.ramAt (s.ramWord (s.sp + 4) + 2) 36 →
      t.f = (s.ramWord s.sp).setWidth 12 ∧
      t.p.get 9 = s.ramWord (s.sp + 2) ∧
      t.sp = s.ramWord (s.sp + 4) + 38 ∧
      (∀ n : Fin 10, n.val < 8 → t.p.get n = s.ramWord (s.ramWord (s.sp + 4) + BitVec.ofNat 16 (2 + 2 * (7 - n.val)))) ∧
      (∀ n : Fin 10, t.r.get n = (s.ramWord (s.ramWord (s.sp + 4) + BitVec.ofNat 16 (18 + 2 * (9 - n.val)))).setWidth 8) ∧
      t.draws = s.draws) ∧
    t.vx = s.vx ∧ t.vy = s.vy ∧ t.vm = s.vm ∧ t.vl = s.vl ∧ t.tt = s.tt ∧ t.tm = s.tm ∧ t.tc = s.tc ∧ t.ts = s.ts ∧
    t.pc = s.pc ∧ nothingStored s t ∧ outsideSame s t

/-- PUSHF completes: SP is 2 lower and the entry is F with four zero bits above it (spec/41_stack.md; D16; a byte stored in
`IO_REGION` goes to the device, the model's choice of log 12). -/
def Obligations.PushfResult : Prop :=
  ∀ s : State, ∃ t, exec .pushf s = .next t ∧ t.sp = s.sp - 2 ∧ wordStored s t (s.sp - 2) (s.f.setWidth 16) ∧
    regsSameExcept [.sp] s t ∧ t.pc = s.pc ∧ t.f = s.f ∧ outsideSame s t ∧ t.draws = s.draws

/-- POPF completes: F is the low 12 bits of the entry and SP is 2 higher (spec/41_stack.md; D16; an entry byte in `IO_REGION` is a
draw, log 11). -/
def Obligations.PopfResult : Prop :=
  ∀ s : State, ∃ t, exec .popf s = .next t ∧ t.f = (s.wordSeen s.sp).setWidth 12 ∧ t.sp = s.sp + 2 ∧
    regsSameExcept [.sp] s t ∧ t.pc = s.pc ∧ nothingStored s t ∧ outsideSame s t ∧ t.draws = s.draws + s.wordDraws s.sp

/-! ### Calls, interrupts and returns -/

/-- CALL completes: the address of the next instruction is pushed and PC is the target (spec/42_call_int.md; D17; a byte stored in
`IO_REGION` goes to the device, the model's choice of log 12). -/
def Obligations.CallResult : Prop :=
  ∀ (target : Word) (s : State), ∃ t, exec (.call target) s = .next t ∧ t.pc = target ∧ t.sp = s.sp - 2 ∧
    wordStored s t (s.sp - 2) s.pc ∧
    regsSameExcept [.sp] s t ∧ t.f = s.f ∧ outsideSame s t ∧ t.draws = s.draws

/-- RET completes: PC is the entry at SP and SP is 2 higher (spec/42_call_int.md; D17; an entry byte in `IO_REGION` is a draw,
log 11). -/
def Obligations.RetResult : Prop :=
  ∀ s : State, ∃ t, exec .ret s = .next t ∧ t.pc = s.wordSeen s.sp ∧ t.sp = s.sp + 2 ∧
    regsSameExcept [.sp] s t ∧ t.f = s.f ∧ nothingStored s t ∧ outsideSame s t ∧ t.draws = s.draws + s.wordDraws s.sp

/-- INT with a vector 0 to 7 completes, whatever F.I is: the handler is entered as for a hardware interrupt and no pending bit changes
(spec/42_call_int.md; D16, D18, D19, D21). The values of the stack entries and of a table entry are stated for RAM and left out for
`IO_REGION`; that a stack store or a table read there leaves the keyboard and the pending bits alone at once is the model's choice (a
store log 12, a read log 11). -/
def Obligations.IntResult : Prop :=
  ∀ (v : Vec) (s : State), ∃ t, exec (.int (BitVec.ofNat 8 v.val)) s = .next t ∧ handlerEntered s t v ∧ t.irq = s.irq

/-- INT with a vector above 7 is `IllegalVector` with the instruction's address, 3 bytes before the next one (spec/42_call_int.md; D20). -/
def Obligations.IntAboveSevenStops : Prop :=
  ∀ (n : Byte) (s : State), 8 ≤ n.toNat → exec (.int n) s = .fault (.illegalVector (s.pc - 3) n)

/-- IRET completes: F is the low 12 bits of the entry at SP, PC the entry above it, SP 4 higher (spec/42_call_int.md; an entry
byte in `IO_REGION` is a draw, log 11). -/
def Obligations.IretResult : Prop :=
  ∀ s : State, ∃ t, exec .iret s = .next t ∧
    t.f = (s.wordSeen s.sp).setWidth 12 ∧
    t.pc = (s.afterDraws (s.wordDraws s.sp)).wordSeen (s.sp + 2) ∧
    t.sp = s.sp + 4 ∧
    regsSameExcept [.sp] s t ∧ nothingStored s t ∧ outsideSame s t ∧
    t.draws = s.draws + s.wordDraws s.sp + s.wordDraws (s.sp + 2)

/-! ### Memory, stack and flags operations -/

/-- `MemRead(a, 1)` is M[a], `MemRead(a, 2)` is M[a] ++ M[(a + 1) mod 2^16] (spec/20_memory.md section 2). A byte in `IO_REGION` is a draw;
that the draw is `Config.freeByte` of the counter, and that such a read changes nothing but the counter, the device's side effect
being an event of the agenda, are the model's choices (logs 11 and 9). -/
def Obligations.MemReadValue : Prop :=
  ∀ (a : Word) (s : State),
    (s.isIo a = false → (readByte a s).1 = s.mem.read a ∧ (readByte a s).2 = s) ∧
    (s.isIo a = true → (readByte a s).1 = Config.freeByte s.draws ∧ (readByte a s).2 = { s with draws := s.draws + 1 }) ∧
    (readWord a s).1 = (readByte a s).1 ++ (readByte (a + 1) (readByte a s).2).1

/-- R44: `MemWrite(a, 1, v)` stores v[7:0] at a; `MemWrite(a, 2, v)` stores v[15:8] at a and v[7:0] at (a + 1) mod 2^16; no other byte
changes. Stated for RAM: what a write to `IO_REGION` does is not defined by the rule. -/
def Obligations.MemWriteEffect : Prop :=
  ∀ (a : Word) (s : State),
    (∀ b : Byte, s.isIo a = false → ∀ x, (writeByte a b s).mem.read x = if x = a then b else s.mem.read x) ∧
    (∀ v : Word, s.isIo a = false → s.isIo (a + 1) = false → ∀ x,
      (writeWord a v s).mem.read x =
        if x = a then (v >>> 8).setWidth 8 else if x = a + 1 then v.setWidth 8 else s.mem.read x)

/-- Mixed widths in RAM: a byte read after a 2-byte write sees its half, a 2-byte read after two byte writes sees both bytes
(spec/20_memory.md section 3). -/
def Obligations.MixedWidthAccesses : Prop :=
  ∀ (a v : Word) (h l : Byte) (s : State), s.ramAt a 2 →
    (readByte a (writeWord a v s)).1 = (v >>> 8).setWidth 8 ∧
    (readByte (a + 1) (writeWord a v s)).1 = v.setWidth 8 ∧
    (readWord a (writeByte (a + 1) l (writeByte a h s))).1 = h ++ l

/-- Memories in canonical form that read the same at every address are equal data (the model's representation, log 7). -/
def Obligations.EqualReadsAreEqualMemories : Prop :=
  ∀ m m' : Memory, m.wf → m'.wf → (∀ a : Word, m.read a = m'.read a) → m = m'

/-- R100: `Push16(v)` decrements SP by 2 (modulo 2^16) and stores v at the new SP, v[15:8] at SP and v[7:0] at SP + 1; in RAM. -/
def Obligations.Push16StoresBelow : Prop :=
  ∀ (v : Word) (s : State), s.ramAt (s.sp - 2) 2 →
    (push16 v s).sp = s.sp - 2 ∧ regsSameExcept [.sp] s (push16 v s) ∧
    ∀ x, (push16 v s).mem.read x =
      if x = (push16 v s).sp then (v >>> 8).setWidth 8
      else if x = (push16 v s).sp + 1 then v.setWidth 8 else s.mem.read x

/-- The place of each of the twelve flags, by its mask (spec/10_state.md section 3). -/
def Obligations.FlagLayout : Prop :=
  ∀ f : FlagsWord,
    (flagOf f .e = true ↔ f &&& 0x800 ≠ 0) ∧ (flagOf f .a = true ↔ f &&& 0x400 ≠ 0) ∧
    (flagOf f .h = true ↔ f &&& 0x200 ≠ 0) ∧ (flagOf f .p = true ↔ f &&& 0x100 ≠ 0) ∧
    (flagOf f .z = true ↔ f &&& 0x080 ≠ 0) ∧ (flagOf f .c = true ↔ f &&& 0x040 ≠ 0) ∧
    (flagOf f .i = true ↔ f &&& 0x020 ≠ 0) ∧ (flagOf f .d = true ↔ f &&& 0x010 ≠ 0) ∧
    (flagOf f .b = true ↔ f &&& 0x008 ≠ 0) ∧ (flagOf f .o = true ↔ f &&& 0x004 ≠ 0) ∧
    (flagOf f .s = true ↔ f &&& 0x002 ≠ 0) ∧ (flagOf f .t = true ↔ f &&& 0x001 ≠ 0)

/-- The image of F on the stack is F with four zero bits above it, and loading an image ignores those four bits (spec/10_state.md section
3; D16). -/
def Obligations.FlagsImage : Prop :=
  (∀ f : FlagsWord, (flagsImage f).toNat = f.toNat ∧ flagsOfImage (flagsImage f) = f) ∧
  ∀ w : Word, (flagsOfImage w).toNat = w.toNat % 4096

/-- The byte views of a P register: its value is the high view followed by the low view; writing one view replaces that byte and leaves
the other and every other register (spec/10_state.md section 1). -/
def Obligations.ByteViewsOfAPRegister : Prop :=
  ∀ (s : State) (n : Fin 10) (b : Byte),
    s.p.get n = s.highByte n ++ s.lowByte n ∧
    (s.setHighByte n b).highByte n = b ∧ (s.setHighByte n b).lowByte n = s.lowByte n ∧
    (s.setLowByte n b).lowByte n = b ∧ (s.setLowByte n b).highByte n = s.highByte n ∧
    regsSameExcept [.p n] s (s.setHighByte n b) ∧ regsSameExcept [.p n] s (s.setLowByte n b)

/-- A source line with a byte view is refused by name: byte views have no encoding (spec/30_encoding.md section 3; D6). -/
def Obligations.ByteViewsAreNotEncodable : Prop :=
  ∀ (cfg : Config) (line : AsmLine) (n : Fin 10),
    (.highByte n ∈ line.operands ∨ .lowByte n ∈ line.operands) →
    transcribe cfg line = .refused (.byteViewNotEncodable line.text)

/-! ### The whole machine -/

/-- SP and FP are 0xFFFF after reset, whatever the parameters, the image and the devices (spec/70_reset_and_hazards.md section 1). -/
def Obligations.LaunchSetsStackAndFramePointer : Prop :=
  (∀ (cfg : Config) (image : Memory) (devices : Agenda),
    (State.launch cfg image devices).sp = 0xFFFF ∧ (State.launch cfg image devices).fp = 0xFFFF) ∧
  State.reset.sp = 0xFFFF ∧ State.reset.fp = 0xFFFF

/-- The invariant holds at reset (the reset values other than SP and FP are the model's, logs 4 to 7 and 10). -/
def Obligations.InvAtReset : Prop := State.reset.Inv

/-- Every step keeps the invariant: memory stays in its canonical form (the model's own representation, log 7), the keyboard's buffer
never exceeds 16 keys, and no vector outside `IRQ_SOURCES` is ever pending (spec/60_exceptions.md sections 2 and 5; D26). -/
def Obligations.StepKeepsInv : Prop :=
  ∀ s t : State, s.Inv → step s = .next t → t.Inv

/-- No step changes the parameters (spec/00_scope.md section 4; log 1). -/
def Obligations.StepKeepsConfig : Prop :=
  ∀ s t : State, step s = .next t → t.cfg = s.cfg

/-- Only POPF, POPA and IRET load F; INT changes no flag but I; every other instruction leaves F as it is (spec/10_state.md section 3;
D11, D17, D18). -/
def Obligations.FlagsChangeOnlyWhereTheSpecSays : Prop :=
  ∀ (i : Instr) (s t : State), exec i s = .next t → i ≠ .popf → i ≠ .popa → i ≠ .iret →
    (∀ x : Flag, x ≠ .i → flagOf t.f x = flagOf s.f x) ∧ ((∀ n, i ≠ .int n) → t.f = s.f)

/-- A register changes only as an instruction's destination, and SP also as the stack pointer of a stack instruction: FP, VX, VY and
the video and timer registers are used implicitly by nothing (spec/10_state.md section 1). That an access to `IO_REGION` changes no register
at once, TT included, is the model's choice (logs 11 and 12). -/
def Obligations.RegistersChangeOnlyAsDestinations : Prop :=
  ∀ (i : Instr) (s t : State) (q : Reg), exec i s = .next t → q ∉ destinations i → (q = .sp → usesStack i = false) →
    t.stored q = s.stored q

/-- RAM changes only at the bytes an instruction stores (spec/20_memory.md section 5); that an access to `IO_REGION` changes no RAM at once is
the model's choice (logs 11 and 12). -/
def Obligations.MemoryChangesOnlyAtTheStoredBytes : Prop :=
  ∀ (i : Instr) (s t : State) (x : Word), exec i s = .next t → ¬ touches (storeRange i s).1 (storeRange i s).2 x →
    t.mem.read x = s.mem.read x

/-- Every step gives a next state, or stops with `IllegalInstruction` and PC's address, or with `IllegalVector`, PC's address and a
number above 7; there is no other stop (spec/60_exceptions.md section 1; D4, D20). That an access to `IO_REGION` does not stop the run is the
model's choice (logs 11 and 12). -/
def Obligations.StepsAndTheirOnlyStops : Prop :=
  ∀ s : State,
    (∃ t, step s = .next t) ∨
    step s = .fault (.illegalInstruction (devicesMove s).pc) ∨
    ∃ n : Byte, 8 ≤ n.toNat ∧ step s = .fault (.illegalVector (devicesMove s).pc n)

/-- Balanced use: PUSH then POP of a register, SP included, restores every register and F, and so do PUSHF then POPF; TT apart, whose
reads are draws (spec/41_stack.md section 3; D14, D15). The two PCs are those of the two fetches. -/
def Obligations.PushThenPopRestores : Prop :=
  ∀ (s : State) (pc : Word), s.ramAt (s.sp - 2) 2 →
    (∀ r : Reg, r ≠ .tt → ∃ t u, exec (.push r) s = .next t ∧ exec (.pop r) (t.setPc pc) = .next u ∧
      regsSameExcept [] s u ∧ u.f = s.f) ∧
    ∃ t u, exec .pushf s = .next t ∧ exec .popf (t.setPc pc) = .next u ∧ regsSameExcept [] s u ∧ u.f = s.f

/-- POPA is the exact inverse of PUSHA for R0-R9, P0-P9, SP and F, whatever the program has put into the registers and flags in between,
as long as it left SP and the frame as PUSHA made them (spec/41_stack.md; D14, D15, D16). -/
def Obligations.PopaUndoesPusha : Prop :=
  ∀ s t t' : State, s.ramAt (s.sp - 42) 42 → exec .pusha s = .next t →
    t'.mem = t.mem → t'.sp = t.sp → t'.cfg = t.cfg →
    ∃ u, exec .popa t' = .next u ∧ (∀ n : Fin 10, u.r.get n = s.r.get n) ∧ (∀ n : Fin 10, u.p.get n = s.p.get n) ∧ u.f = s.f

/-- A RET that finds the stack as a CALL left it returns to the instruction after the CALL, with every register and F as before the
CALL (spec/42_call_int.md). -/
def Obligations.RetUndoesCall : Prop :=
  ∀ (s : State) (target pc : Word), s.ramAt (s.sp - 2) 2 →
    ∃ t u, exec (.call target) s = .next t ∧ exec .ret (t.setPc pc) = .next u ∧
      u.pc = s.pc ∧ regsSameExcept [] s u ∧ u.f = s.f

/-- An IRET that finds the stack as handler entry left it restores PC, F with its old I, SP and every register, after INT and after a
hardware interrupt (spec/60_exceptions.md section 6; D18, D23). -/
def Obligations.IretUndoesHandlerEntry : Prop :=
  ∀ (s : State) (v : Vec) (pc : Word), s.ramAt (s.sp - 4) 4 →
    (∃ t u, exec (.int (BitVec.ofNat 8 v.val)) s = .next t ∧ exec .iret (t.setPc pc) = .next u ∧
      u.pc = s.pc ∧ u.f = s.f ∧ regsSameExcept [] s u) ∧
    ∃ u, exec .iret ((takeInterrupt v s).setPc pc) = .next u ∧ u.pc = s.pc ∧ u.f = s.f ∧ regsSameExcept [] s u

/-- A launch takes every value from its arguments: PC is `RESET_PC`, F is `RESET_FLAGS`, each register other than SP and FP, the pending
bits and the keyboard's buffer hold the reset value the parameters give them, memory is the image, and the devices' moves are those
given; SP and FP are 0xFFFF (spec/00_scope.md section 4, spec/10_state.md section 7, spec/70_reset_and_hazards.md section 1; D28, D37). -/
def Obligations.LaunchTakesItsValuesFromTheArguments : Prop :=
  ∀ (cfg : Config) (image : Memory) (devices : Agenda), ∃ t, State.launch cfg image devices = t ∧
    t.pc = cfg.resetPc ∧ t.f = cfg.resetValues.flags ∧
    (∀ n : Fin 10, t.r.get n = cfg.resetValues.r.get n) ∧
    (∀ n : Fin 8, t.p.get (n.castLE (by decide)) = cfg.resetValues.p.get n) ∧ t.sp = 0xFFFF ∧ t.fp = 0xFFFF ∧
    t.vx = cfg.resetValues.vx ∧ t.vy = cfg.resetValues.vy ∧ t.vm = cfg.resetValues.vm ∧ t.vl = cfg.resetValues.vl ∧
    t.tt = cfg.resetValues.tt ∧ t.tm = cfg.resetValues.tm ∧ t.tc = cfg.resetValues.tc ∧ t.ts = cfg.resetValues.ts ∧
    t.irq = cfg.resetValues.irq ∧ t.keyboard = cfg.resetValues.keyboard ∧
    t.mem = image ∧ t.agenda = devices ∧ t.cfg = cfg

/-- The invariant holds at every launch whose image is in canonical form (log 7), whose keyboard holds at most 16 keys and whose pending
bits are of `IRQ_SOURCES` (spec/60_exceptions.md sections 2 and 5; D26, D28). -/
def Obligations.InvAtEveryLaunch : Prop :=
  ∀ (cfg : Config) (image : Memory) (devices : Agenda), image.wf → cfg.resetValues.keyboard.length ≤ 16 →
    (∀ v : Vec, cfg.resetValues.irq.get v = true → v ∈ cfg.irqSources) → (State.launch cfg image devices).Inv
end

