-- ==== Sys2Proof/Laws/Decode.lean ====
section
/-! SUPPORT. Encoding and decoding, part by part: codes, mode byte, operands, opcodes, admitted forms. -/

namespace Sys2Proof

/-! ### Words -/

/-- A word is its two bytes (R45). -/
@[simp] theorem wordOf_hi_lo (v : Word) : wordOf (hiByte v) (loByte v) = v := by
  apply BitVec.eq_of_getLsbD_eq
  intro i hi
  simp only [wordOf, hiByte, loByte, BitVec.getLsbD_append, BitVec.getLsbD_extractLsb']
  by_cases h : i < 8
  · simp [h]
  · simp [h, show i - 8 < 8 by omega, show 8 + (i - 8) = i by omega]

@[simp] theorem hiByte_wordOf (h l : Byte) : hiByte (wordOf h l) = h := by
  apply BitVec.eq_of_getLsbD_eq
  intro i hi
  simp only [wordOf, hiByte, BitVec.getLsbD_append, BitVec.getLsbD_extractLsb']
  simp [hi]

@[simp] theorem loByte_wordOf (h l : Byte) : loByte (wordOf h l) = l := by
  apply BitVec.eq_of_getLsbD_eq
  intro i hi
  simp only [wordOf, loByte, BitVec.getLsbD_append, BitVec.getLsbD_extractLsb']
  simp [hi]

@[simp] theorem loByte_zextByte (b : Byte) : loByte (zextByte b) = b := by
  apply BitVec.eq_of_getLsbD_eq
  intro i hi
  simp [loByte, zextByte, hi]
  omega

theorem loByte_eq (v : Word) : loByte v = v.setWidth 8 := by
  apply BitVec.eq_of_getLsbD_eq
  intro i hi
  simp [loByte, hi]

theorem hiByte_eq (v : Word) : hiByte v = (v >>> 8).setWidth 8 := by
  apply BitVec.eq_of_getLsbD_eq
  intro i hi
  simp [hiByte, hi]

/-! ### Codes (R67, R68) -/

@[simp] theorem Base.ofCode_code (b : Base) : Base.ofCode b.reg.code = some b := by
  cases b with
  | r n => revert n; decide
  | p n => revert n; decide

@[simp] theorem Reg.ofCode_code (r : Reg) : Reg.ofCode r.code = some r := by
  cases r with
  | r n => revert n; decide
  | p n => revert n; decide
  | _ => decide

theorem Base.code_of_ofCode {c : Byte} {b : Base} (h : Base.ofCode c = some b) : b.reg.code = c := by
  apply BitVec.eq_of_toNat_eq
  have hc := c.isLt
  unfold Base.ofCode at h
  split at h
  · simp at h
  · split at h
    · obtain rfl := Option.some.inj h
      simp only [Base.reg, Reg.code, BitVec.toNat_ofNat, Fin.ofNat]
      omega
    · split at h
      · obtain rfl := Option.some.inj h
        simp only [Base.reg, Reg.code, BitVec.toNat_ofNat, Fin.ofNat]
        omega
      · simp at h

theorem Reg.code_of_ofCode {c : Byte} {r : Reg} (h : Reg.ofCode c = some r) : r.code = c := by
  unfold Reg.ofCode at h
  split at h
  · rename_i b hb
    obtain rfl := Option.some.inj h
    exact Base.code_of_ofCode hb
  · repeat' split at h
    all_goals first
      | (obtain rfl := Option.some.inj h; simp_all [Reg.code])
      | simp at h

/-! ### The mode byte (R62) -/

@[simp] theorem modeM1_modeByte (dir x : Bool) (m3 m2 m1 : AddrMode) : modeM1 (modeByte dir x m3 m2 m1) = m1 := by
  cases dir <;> cases x <;> cases m3 <;> cases m2 <;> cases m1 <;> decide

@[simp] theorem modeM2_modeByte (dir x : Bool) (m3 m2 m1 : AddrMode) : modeM2 (modeByte dir x m3 m2 m1) = m2 := by
  cases dir <;> cases x <;> cases m3 <;> cases m2 <;> cases m1 <;> decide

@[simp] theorem modeM3_modeByte (dir x : Bool) (m3 m2 m1 : AddrMode) : modeM3 (modeByte dir x m3 m2 m1) = m3 := by
  cases dir <;> cases x <;> cases m3 <;> cases m2 <;> cases m1 <;> decide

@[simp] theorem modeX_modeByte (dir x : Bool) (m3 m2 m1 : AddrMode) : modeX (modeByte dir x m3 m2 m1) = x := by
  cases dir <;> cases x <;> cases m3 <;> cases m2 <;> cases m1 <;> decide

@[simp] theorem modeDir_modeByte (dir x : Bool) (m3 m2 m1 : AddrMode) : modeDir (modeByte dir x m3 m2 m1) = dir := by
  cases dir <;> cases x <;> cases m3 <;> cases m2 <;> cases m1 <;> decide

/-- A mode byte is its five fields. -/
theorem modeByte_fields (m : Byte) : modeByte (modeDir m) (modeX m) (modeM3 m) (modeM2 m) (modeM1 m) = m := by
  revert m; decide +revert

/-! ### Opcodes (R74) -/

theorem Config.opcode_of_mnemonicOf {cfg : Config} {b : Byte} {m : Mnemonic} (h : cfg.mnemonicOf b = some m) :
    cfg.opcode m = b := by
  have := List.find?_some h
  simpa using this

/-- With legal opcodes (D5) every opcode byte is read as its own mnemonic. -/
theorem Config.mnemonicOf_opcode {cfg : Config} (h : cfg.OpcodesLegal) (m : Mnemonic) :
    cfg.mnemonicOf (cfg.opcode m) = some m := by
  have hm : m ∈ Mnemonic.all := by cases m <;> decide
  unfold Config.OpcodesLegal at h
  unfold Config.mnemonicOf
  generalize Mnemonic.all = l at h hm
  induction l with
  | nil => simp at hm
  | cons a l ih =>
    obtain ⟨ha, hl⟩ := List.nodup_cons.mp h
    rw [List.find?_cons]
    rcases List.mem_cons.mp hm with rfl | hm
    · simp
    · have hne : cfg.opcode a ≠ cfg.opcode m := fun e => ha (e ▸ List.mem_map_of_mem hm)
      have hb : (cfg.opcode a == cfg.opcode m) = false := by simp [hne]
      rw [hb]
      exact ih hl hm

/-! ### Admitted forms (R75) -/

/-- An instruction is the admitted form of its mnemonic and operands. -/
theorem admittedForm_operands {i : Instr} (h : i.WellFormed = true) : admittedForm i.mnemonic i.operands = some i := by
  cases i with
  | mov dst src => exact if_pos h
  | _ => rfl

/-- An admitted form is a well-formed instruction with that mnemonic and those operands. -/
theorem of_admittedForm {m : Mnemonic} {ops : List Operand} {i : Instr} (h : admittedForm m ops = some i) :
    i.WellFormed = true ∧ i.mnemonic = m ∧ i.operands = ops := by
  cases m with
  | mov =>
    simp only [admittedForm] at h
    split at h
    · split at h
      · obtain rfl := Option.some.inj h
        exact ⟨by assumption, rfl, rfl⟩
      · simp at h
    · simp at h
  | _ =>
    simp only [admittedForm] at h
    split at h
    · obtain rfl := Option.some.inj h
      first | exact ⟨rfl, rfl, rfl⟩ | (subst_vars; exact ⟨rfl, rfl, rfl⟩)
    · simp at h

theorem operandCount_mnemonic (i : Instr) : i.mnemonic.operandCount = i.operands.length := by
  cases i <;> rfl

/-! ### Operands (R64, R66) -/

/-- The data bytes of an operand are read back as the operand, under flag bits that fit it. -/
theorem parseOperand_data (o : Operand) (dir x : Bool) (rest : List Byte)
    (h : o.mode = .mem → o.dir = dir ∧ o.idx = x) :
    parseOperand dir x o.mode (o.data ++ rest) = .ok (o, rest) := by
  cases o with
  | reg r => simp [Operand.mode, Operand.data, parseOperand]
  | imm8 v => rfl
  | imm16 v => simp [Operand.mode, Operand.data, parseOperand]
  | mem m =>
    obtain ⟨rfl, rfl⟩ := h rfl
    cases m <;> simp [Operand.mode, Operand.data, parseOperand, Operand.dir, Operand.idx]

/-- What an operand that was read says about the bytes it was read from. -/
theorem of_parseOperand {dir x : Bool} {m : AddrMode} {bs rest : List Byte} {o : Operand}
    (h : parseOperand dir x m bs = .ok (o, rest)) :
    o.mode = m ∧ bs = o.data ++ rest ∧ (o.mode = .mem → o.dir = dir ∧ o.idx = x) := by
  unfold parseOperand at h
  split at h
  · split at h
    · rename_i r hr
      obtain ⟨rfl, rfl⟩ := Prod.mk.inj (Except.ok.inj h)
      simp [Operand.mode, Operand.data, Reg.code_of_ofCode hr]
    · simp at h
  · obtain ⟨rfl, rfl⟩ := Prod.mk.inj (Except.ok.inj h)
    simp [Operand.mode, Operand.data]
  · obtain ⟨rfl, rfl⟩ := Prod.mk.inj (Except.ok.inj h)
    simp [Operand.mode, Operand.data]
  · split at h
    · simp at h
    · rename_i hdx
      split at h
      · rename_i hd
        split at h
        · obtain ⟨rfl, rfl⟩ := Prod.mk.inj (Except.ok.inj h)
          simp_all [Operand.mode, Operand.data, Operand.dir, Operand.idx]
        · simp at h
      · rename_i hd
        split at h
        · simp at h
        · rename_i b hb
          split at h
          · split at h
            · obtain ⟨rfl, rfl⟩ := Prod.mk.inj (Except.ok.inj h)
              simp_all [Operand.mode, Operand.data, Operand.dir, Operand.idx, Base.code_of_ofCode hb]
            · simp at h
          · obtain ⟨rfl, rfl⟩ := Prod.mk.inj (Except.ok.inj h)
            simp_all [Operand.mode, Operand.data, Operand.dir, Operand.idx, Base.code_of_ofCode hb]
  · simp at h

/-- The data of a list of operands is read back as the operands. -/
theorem parseOperands_data (ops : List Operand) (dir x : Bool) (rest : List Byte)
    (h : ∀ o ∈ ops, o.mode = .mem → o.dir = dir ∧ o.idx = x) :
    parseOperands dir x (ops.map Operand.mode) (ops.flatMap Operand.data ++ rest) = .ok (ops, rest) := by
  induction ops with
  | nil => rfl
  | cons o ops ih =>
    simp only [List.map_cons, List.flatMap_cons, List.append_assoc, parseOperands]
    rw [parseOperand_data o dir x _ (h o (by simp))]
    simp only
    rw [ih fun o ho => h o (by simp [ho])]

/-- What operands that were read say about the bytes they were read from. -/
theorem of_parseOperands {dir x : Bool} {ms : List AddrMode} {bs rest : List Byte} {ops : List Operand}
    (h : parseOperands dir x ms bs = .ok (ops, rest)) :
    ops.map Operand.mode = ms ∧ bs = ops.flatMap Operand.data ++ rest ∧
      ∀ o ∈ ops, o.mode = .mem → o.dir = dir ∧ o.idx = x := by
  induction ms generalizing bs ops with
  | nil =>
    obtain ⟨rfl, rfl⟩ := Prod.mk.inj (Except.ok.inj h)
    simp
  | cons m ms ih =>
    unfold parseOperands at h
    split at h
    · simp at h
    · rename_i o bs' ho
      split at h
      · simp at h
      · rename_i os bs'' hos
        obtain ⟨rfl, rfl⟩ := Prod.mk.inj (Except.ok.inj h)
        obtain ⟨h1, h2, h3⟩ := of_parseOperand ho
        obtain ⟨k1, k2, k3⟩ := ih hos
        refine ⟨by simp [h1, k1], by simp [h2, k2], ?_⟩
        intro o' ho'
        rcases List.mem_cons.mp ho' with rfl | ho'
        · exact h3
        · exact k3 o' ho'

/-! ### Lengths (R61, R65) -/

theorem Operand.data_length_le (o : Operand) : o.data.length ≤ 2 := by
  rcases o with r | v | v | (a | b | ⟨b, o⟩) <;> simp [Operand.data]

/-- No instruction is longer than the bytes a fetch looks at. -/
theorem length_le (cfg : Config) (i : Instr) : i.length cfg ≤ 6 := by
  unfold Instr.length encode
  cases i with
  | mov d s =>
    have := d.data_length_le
    have := s.data_length_le
    simp [Instr.operands]
    omega
  | push r => simp [Instr.operands, Operand.data]
  | pop r => simp [Instr.operands, Operand.data]
  | call t => simp [Instr.operands, Operand.data]
  | int n => simp [Instr.operands, Operand.data]
  | _ => simp [Instr.operands]; split <;> simp

end Sys2Proof
end

