-- ==== Sys2Proof/Laws/Memory.lean ====
section
/-! SUPPORT. Memory: reading after writing, the canonical form is kept by every write, and memories in canonical form that read the
same are the same list. -/

namespace Sys2Proof.Machine

theorem Memory.lookup_insert (c : Host.Cell) (m : Memory) (k : Nat) (h : ∀ d ∈ m, d.1 ≠ c.1) :
    (Memory.insert c m).lookup k = if c.1 = k then c.2 else m.lookup k := by
  induction m with
  | nil => rfl
  | cons d m ih =>
    have hd : d.1 ≠ c.1 := h d (by simp)
    have ih := ih fun e he => h e (by simp [he])
    simp only [Memory.insert]
    split
    · rfl
    · simp only [Memory.lookup, ih]
      split <;> split <;> simp_all

theorem Memory.lookup_filter_ne (m : Memory) (a k : Nat) :
    Memory.lookup (m.filter fun c => c.1 != a) k = if k = a then unlistedByte else m.lookup k := by
  induction m with
  | nil => simp [Memory.lookup]
  | cons d m ih =>
    rw [List.filter_cons]
    by_cases hd : d.1 = a
    · rw [if_neg (by simp [hd]), ih]
      simp only [Memory.lookup]
      split
      · rfl
      · rw [if_neg (by omega)]
    · rw [if_pos (by simp [hd])]
      simp only [Memory.lookup, ih]
      split
      · rw [if_neg (by omega)]
      · rfl

/-- Reading after a write: the byte written there, what was read before elsewhere. It holds of every list, canonical or not. -/
theorem Memory.read_write (m : Memory) (a x : Word) (b : Byte) :
    (m.write a b).read x = if x = a then b else m.read x := by
  by_cases hx : x = a
  · subst hx
    unfold Memory.read Memory.write
    simp only
    split
    · simp_all [Memory.lookup_filter_ne]
    · simp [Memory.lookup_insert]
  · have hn : x.toNat ≠ a.toNat := fun e => hx (BitVec.eq_of_toNat_eq e)
    unfold Memory.read Memory.write
    simp only
    split
    · simp [Memory.lookup_filter_ne, hn]
    · rw [Memory.lookup_insert _ _ _ (by simp)]
      simp [Memory.lookup_filter_ne, hn, Ne.symm hn]

@[simp] theorem Memory.read_write_same (m : Memory) (a : Word) (b : Byte) : (m.write a b).read a = b := by
  simp [Memory.read_write]

theorem Memory.read_write_other (m : Memory) {a x : Word} (b : Byte) (h : x ≠ a) : (m.write a b).read x = m.read x := by
  simp [Memory.read_write, h]

/-! ### The canonical form -/

theorem Memory.wf_nil : Memory.wf [] := ⟨List.Pairwise.nil, by simp⟩

theorem Memory.mem_insert {c d : Host.Cell} {m : Memory} : d ∈ Memory.insert c m ↔ d = c ∨ d ∈ m := by
  induction m with
  | nil => simp [Memory.insert]
  | cons e m ih =>
    simp only [Memory.insert]
    split
    · simp
    · simp only [List.mem_cons, ih]; tauto

theorem Memory.pairwise_insert {c : Host.Cell} {m : Memory} (h : m.Pairwise (fun a b => a.1 < b.1)) (hc : ∀ d ∈ m, d.1 ≠ c.1) :
    (Memory.insert c m).Pairwise (fun a b => a.1 < b.1) := by
  induction m with
  | nil => simp [Memory.insert]
  | cons e m ih =>
    obtain ⟨he, hm⟩ := List.pairwise_cons.mp h
    have hec : e.1 ≠ c.1 := hc e (by simp)
    simp only [Memory.insert]
    split
    · refine List.pairwise_cons.mpr ⟨fun d hd => ?_, h⟩
      rcases List.mem_cons.mp hd with rfl | hd
      · assumption
      · have := he d hd; omega
    · refine List.pairwise_cons.mpr ⟨fun d hd => ?_, ih hm fun d hd => hc d (by simp [hd])⟩
      rcases Memory.mem_insert.mp hd with rfl | hd
      · omega
      · exact he d hd

/-- Every write keeps the canonical form. -/
theorem Memory.wf_write {m : Memory} (h : m.wf) (a : Word) (b : Byte) : (m.write a b).wf := by
  have hf : Memory.wf (m.filter fun c => c.1 != a.toNat) :=
    ⟨h.1.filter _, fun c hc => h.2 c (List.mem_of_mem_filter hc)⟩
  unfold Memory.write
  simp only
  split
  · exact hf
  · rename_i hb
    refine ⟨Memory.pairwise_insert hf.1 (by simp), fun c hc => ?_⟩
    rcases Memory.mem_insert.mp hc with rfl | hc
    · exact ⟨a.isLt, hb⟩
    · exact hf.2 c hc

theorem Memory.wf_writeBytes {m : Memory} (h : m.wf) (a : Word) (bs : List Byte) : (m.writeBytes a bs).wf := by
  induction bs generalizing m a with
  | nil => exact h
  | cons b bs ih => exact ih (Memory.wf_write h a b) (a + 1)

theorem Memory.lookup_of_lt {m : Memory} {k : Nat} (h : ∀ c ∈ m, k < c.1) : m.lookup k = unlistedByte := by
  induction m with
  | nil => rfl
  | cons c m ih =>
    have := h c (by simp)
    simp only [Memory.lookup]
    rw [if_neg (by omega)]
    exact ih fun d hd => h d (by simp [hd])

end Sys2Proof.Machine
end

