-- ==== Sys2Proof/Laws/State.lean ====
section
/-! SUPPORT. One lemma per field per named update of State, and what a register holds after an update, so that no later proof unfolds
a record update. -/

namespace Sys2Proof.Machine

/-- Reading an entry of a register file after a write to one of its entries. -/
theorem vector_get_set {α : Type} {k : Nat} (v : Vector α k) (n m : Fin k) (x : α) :
    (v.set n x).get m = if m = n then x else v.get m := by
  change (v.set n x)[m.val] = if m = n then x else v[m.val]
  rw [Vector.getElem_set]
  simp [Fin.ext_iff, eq_comm]

/-! ### setR, setP, setIrq: the fields they leave, by rfl -/

@[simp] theorem State.setR_r_get (s : State) (n : Fin 10) (v : Byte) (m : Fin 10) :
    (s.setR n v).r.get m = if m = n then v else s.r.get m := vector_get_set ..
@[simp] theorem State.setR_p (s : State) (n : Fin 10) (v : Byte) : (s.setR n v).p = s.p := rfl
@[simp] theorem State.setR_vx (s : State) (n : Fin 10) (v : Byte) : (s.setR n v).vx = s.vx := rfl
@[simp] theorem State.setR_vy (s : State) (n : Fin 10) (v : Byte) : (s.setR n v).vy = s.vy := rfl
@[simp] theorem State.setR_vm (s : State) (n : Fin 10) (v : Byte) : (s.setR n v).vm = s.vm := rfl
@[simp] theorem State.setR_vl (s : State) (n : Fin 10) (v : Byte) : (s.setR n v).vl = s.vl := rfl
@[simp] theorem State.setR_tt (s : State) (n : Fin 10) (v : Byte) : (s.setR n v).tt = s.tt := rfl
@[simp] theorem State.setR_tm (s : State) (n : Fin 10) (v : Byte) : (s.setR n v).tm = s.tm := rfl
@[simp] theorem State.setR_tc (s : State) (n : Fin 10) (v : Byte) : (s.setR n v).tc = s.tc := rfl
@[simp] theorem State.setR_ts (s : State) (n : Fin 10) (v : Byte) : (s.setR n v).ts = s.ts := rfl
@[simp] theorem State.setR_pc (s : State) (n : Fin 10) (v : Byte) : (s.setR n v).pc = s.pc := rfl
@[simp] theorem State.setR_f (s : State) (n : Fin 10) (v : Byte) : (s.setR n v).f = s.f := rfl
@[simp] theorem State.setR_mem (s : State) (n : Fin 10) (v : Byte) : (s.setR n v).mem = s.mem := rfl
@[simp] theorem State.setR_irq (s : State) (n : Fin 10) (v : Byte) : (s.setR n v).irq = s.irq := rfl
@[simp] theorem State.setR_keyboard (s : State) (n : Fin 10) (v : Byte) : (s.setR n v).keyboard = s.keyboard := rfl
@[simp] theorem State.setR_deviceWrites (s : State) (n : Fin 10) (v : Byte) : (s.setR n v).deviceWrites = s.deviceWrites := rfl
@[simp] theorem State.setR_agenda (s : State) (n : Fin 10) (v : Byte) : (s.setR n v).agenda = s.agenda := rfl
@[simp] theorem State.setR_draws (s : State) (n : Fin 10) (v : Byte) : (s.setR n v).draws = s.draws := rfl
@[simp] theorem State.setR_cfg (s : State) (n : Fin 10) (v : Byte) : (s.setR n v).cfg = s.cfg := rfl

@[simp] theorem State.setP_r (s : State) (n : Fin 10) (v : Word) : (s.setP n v).r = s.r := rfl
@[simp] theorem State.setP_p_get (s : State) (n : Fin 10) (v : Word) (m : Fin 10) :
    (s.setP n v).p.get m = if m = n then v else s.p.get m := vector_get_set ..
@[simp] theorem State.setP_vx (s : State) (n : Fin 10) (v : Word) : (s.setP n v).vx = s.vx := rfl
@[simp] theorem State.setP_vy (s : State) (n : Fin 10) (v : Word) : (s.setP n v).vy = s.vy := rfl
@[simp] theorem State.setP_vm (s : State) (n : Fin 10) (v : Word) : (s.setP n v).vm = s.vm := rfl
@[simp] theorem State.setP_vl (s : State) (n : Fin 10) (v : Word) : (s.setP n v).vl = s.vl := rfl
@[simp] theorem State.setP_tt (s : State) (n : Fin 10) (v : Word) : (s.setP n v).tt = s.tt := rfl
@[simp] theorem State.setP_tm (s : State) (n : Fin 10) (v : Word) : (s.setP n v).tm = s.tm := rfl
@[simp] theorem State.setP_tc (s : State) (n : Fin 10) (v : Word) : (s.setP n v).tc = s.tc := rfl
@[simp] theorem State.setP_ts (s : State) (n : Fin 10) (v : Word) : (s.setP n v).ts = s.ts := rfl
@[simp] theorem State.setP_pc (s : State) (n : Fin 10) (v : Word) : (s.setP n v).pc = s.pc := rfl
@[simp] theorem State.setP_f (s : State) (n : Fin 10) (v : Word) : (s.setP n v).f = s.f := rfl
@[simp] theorem State.setP_mem (s : State) (n : Fin 10) (v : Word) : (s.setP n v).mem = s.mem := rfl
@[simp] theorem State.setP_irq (s : State) (n : Fin 10) (v : Word) : (s.setP n v).irq = s.irq := rfl
@[simp] theorem State.setP_keyboard (s : State) (n : Fin 10) (v : Word) : (s.setP n v).keyboard = s.keyboard := rfl
@[simp] theorem State.setP_deviceWrites (s : State) (n : Fin 10) (v : Word) : (s.setP n v).deviceWrites = s.deviceWrites := rfl
@[simp] theorem State.setP_agenda (s : State) (n : Fin 10) (v : Word) : (s.setP n v).agenda = s.agenda := rfl
@[simp] theorem State.setP_draws (s : State) (n : Fin 10) (v : Word) : (s.setP n v).draws = s.draws := rfl
@[simp] theorem State.setP_cfg (s : State) (n : Fin 10) (v : Word) : (s.setP n v).cfg = s.cfg := rfl

@[simp] theorem State.setIrq_r (s : State) (n : Vec) (v : Bool) : (s.setIrq n v).r = s.r := rfl
@[simp] theorem State.setIrq_p (s : State) (n : Vec) (v : Bool) : (s.setIrq n v).p = s.p := rfl
@[simp] theorem State.setIrq_vx (s : State) (n : Vec) (v : Bool) : (s.setIrq n v).vx = s.vx := rfl
@[simp] theorem State.setIrq_vy (s : State) (n : Vec) (v : Bool) : (s.setIrq n v).vy = s.vy := rfl
@[simp] theorem State.setIrq_vm (s : State) (n : Vec) (v : Bool) : (s.setIrq n v).vm = s.vm := rfl
@[simp] theorem State.setIrq_vl (s : State) (n : Vec) (v : Bool) : (s.setIrq n v).vl = s.vl := rfl
@[simp] theorem State.setIrq_tt (s : State) (n : Vec) (v : Bool) : (s.setIrq n v).tt = s.tt := rfl
@[simp] theorem State.setIrq_tm (s : State) (n : Vec) (v : Bool) : (s.setIrq n v).tm = s.tm := rfl
@[simp] theorem State.setIrq_tc (s : State) (n : Vec) (v : Bool) : (s.setIrq n v).tc = s.tc := rfl
@[simp] theorem State.setIrq_ts (s : State) (n : Vec) (v : Bool) : (s.setIrq n v).ts = s.ts := rfl
@[simp] theorem State.setIrq_pc (s : State) (n : Vec) (v : Bool) : (s.setIrq n v).pc = s.pc := rfl
@[simp] theorem State.setIrq_f (s : State) (n : Vec) (v : Bool) : (s.setIrq n v).f = s.f := rfl
@[simp] theorem State.setIrq_mem (s : State) (n : Vec) (v : Bool) : (s.setIrq n v).mem = s.mem := rfl
@[simp] theorem State.setIrq_irq_get (s : State) (n : Vec) (v : Bool) (m : Vec) :
    (s.setIrq n v).irq.get m = if m = n then v else s.irq.get m := vector_get_set ..
@[simp] theorem State.setIrq_keyboard (s : State) (n : Vec) (v : Bool) : (s.setIrq n v).keyboard = s.keyboard := rfl
@[simp] theorem State.setIrq_deviceWrites (s : State) (n : Vec) (v : Bool) : (s.setIrq n v).deviceWrites = s.deviceWrites := rfl
@[simp] theorem State.setIrq_agenda (s : State) (n : Vec) (v : Bool) : (s.setIrq n v).agenda = s.agenda := rfl
@[simp] theorem State.setIrq_draws (s : State) (n : Vec) (v : Bool) : (s.setIrq n v).draws = s.draws := rfl
@[simp] theorem State.setIrq_cfg (s : State) (n : Vec) (v : Bool) : (s.setIrq n v).cfg = s.cfg := rfl

/-! ### setPc, setF: by rfl -/

@[simp] theorem State.setPc_r (s : State) (v : Word) : (s.setPc v).r = s.r := rfl
@[simp] theorem State.setPc_p (s : State) (v : Word) : (s.setPc v).p = s.p := rfl
@[simp] theorem State.setPc_vx (s : State) (v : Word) : (s.setPc v).vx = s.vx := rfl
@[simp] theorem State.setPc_vy (s : State) (v : Word) : (s.setPc v).vy = s.vy := rfl
@[simp] theorem State.setPc_vm (s : State) (v : Word) : (s.setPc v).vm = s.vm := rfl
@[simp] theorem State.setPc_vl (s : State) (v : Word) : (s.setPc v).vl = s.vl := rfl
@[simp] theorem State.setPc_tt (s : State) (v : Word) : (s.setPc v).tt = s.tt := rfl
@[simp] theorem State.setPc_tm (s : State) (v : Word) : (s.setPc v).tm = s.tm := rfl
@[simp] theorem State.setPc_tc (s : State) (v : Word) : (s.setPc v).tc = s.tc := rfl
@[simp] theorem State.setPc_ts (s : State) (v : Word) : (s.setPc v).ts = s.ts := rfl
@[simp] theorem State.setPc_pc (s : State) (v : Word) : (s.setPc v).pc = v := rfl
@[simp] theorem State.setPc_f (s : State) (v : Word) : (s.setPc v).f = s.f := rfl
@[simp] theorem State.setPc_mem (s : State) (v : Word) : (s.setPc v).mem = s.mem := rfl
@[simp] theorem State.setPc_irq (s : State) (v : Word) : (s.setPc v).irq = s.irq := rfl
@[simp] theorem State.setPc_keyboard (s : State) (v : Word) : (s.setPc v).keyboard = s.keyboard := rfl
@[simp] theorem State.setPc_deviceWrites (s : State) (v : Word) : (s.setPc v).deviceWrites = s.deviceWrites := rfl
@[simp] theorem State.setPc_agenda (s : State) (v : Word) : (s.setPc v).agenda = s.agenda := rfl
@[simp] theorem State.setPc_draws (s : State) (v : Word) : (s.setPc v).draws = s.draws := rfl
@[simp] theorem State.setPc_cfg (s : State) (v : Word) : (s.setPc v).cfg = s.cfg := rfl
@[simp] theorem State.setPc_sp (s : State) (v : Word) : (s.setPc v).sp = s.sp := rfl
@[simp] theorem State.setPc_isIo (s : State) (v : Word) (a : Word) : (s.setPc v).isIo a = s.isIo a := rfl
@[simp] theorem State.setPc_ramWord (s : State) (v : Word) (a : Word) : (s.setPc v).ramWord a = s.ramWord a := rfl
@[simp] theorem State.setPc_stored (s : State) (v : Word) (q : Reg) : (s.setPc v).stored q = s.stored q := by cases q <;> rfl

@[simp] theorem State.setF_r (s : State) (v : FlagsWord) : (s.setF v).r = s.r := rfl
@[simp] theorem State.setF_p (s : State) (v : FlagsWord) : (s.setF v).p = s.p := rfl
@[simp] theorem State.setF_vx (s : State) (v : FlagsWord) : (s.setF v).vx = s.vx := rfl
@[simp] theorem State.setF_vy (s : State) (v : FlagsWord) : (s.setF v).vy = s.vy := rfl
@[simp] theorem State.setF_vm (s : State) (v : FlagsWord) : (s.setF v).vm = s.vm := rfl
@[simp] theorem State.setF_vl (s : State) (v : FlagsWord) : (s.setF v).vl = s.vl := rfl
@[simp] theorem State.setF_tt (s : State) (v : FlagsWord) : (s.setF v).tt = s.tt := rfl
@[simp] theorem State.setF_tm (s : State) (v : FlagsWord) : (s.setF v).tm = s.tm := rfl
@[simp] theorem State.setF_tc (s : State) (v : FlagsWord) : (s.setF v).tc = s.tc := rfl
@[simp] theorem State.setF_ts (s : State) (v : FlagsWord) : (s.setF v).ts = s.ts := rfl
@[simp] theorem State.setF_pc (s : State) (v : FlagsWord) : (s.setF v).pc = s.pc := rfl
@[simp] theorem State.setF_f (s : State) (v : FlagsWord) : (s.setF v).f = v := rfl
@[simp] theorem State.setF_mem (s : State) (v : FlagsWord) : (s.setF v).mem = s.mem := rfl
@[simp] theorem State.setF_irq (s : State) (v : FlagsWord) : (s.setF v).irq = s.irq := rfl
@[simp] theorem State.setF_keyboard (s : State) (v : FlagsWord) : (s.setF v).keyboard = s.keyboard := rfl
@[simp] theorem State.setF_deviceWrites (s : State) (v : FlagsWord) : (s.setF v).deviceWrites = s.deviceWrites := rfl
@[simp] theorem State.setF_agenda (s : State) (v : FlagsWord) : (s.setF v).agenda = s.agenda := rfl
@[simp] theorem State.setF_draws (s : State) (v : FlagsWord) : (s.setF v).draws = s.draws := rfl
@[simp] theorem State.setF_cfg (s : State) (v : FlagsWord) : (s.setF v).cfg = s.cfg := rfl
@[simp] theorem State.setF_sp (s : State) (v : FlagsWord) : (s.setF v).sp = s.sp := rfl
@[simp] theorem State.setF_isIo (s : State) (v : FlagsWord) (a : Word) : (s.setF v).isIo a = s.isIo a := rfl
@[simp] theorem State.setF_ramWord (s : State) (v : FlagsWord) (a : Word) : (s.setF v).ramWord a = s.ramWord a := rfl
@[simp] theorem State.setF_stored (s : State) (v : FlagsWord) (q : Reg) : (s.setF v).stored q = s.stored q := by cases q <;> rfl

/-- Writing SP is writing P8 (R12). -/
@[simp] theorem State.setSp_eq (s : State) (v : Word) : s.setSp v = s.setP 8 v := rfl

/-- SP reads P8 (R12). -/
theorem State.sp_eq (s : State) : s.sp = s.p.get 8 := rfl

@[simp] theorem State.stored_sp (s : State) : s.stored (.p 8) = s.sp := rfl

@[simp] theorem State.stored_fp (s : State) : s.stored (.p 9) = s.fp := rfl

/-! ### writeReg: one register changes, nothing else -/

@[simp] theorem writeReg_pc (d : Reg) (v : Word) (s : State) : (writeReg d v s).pc = s.pc := by cases d <;> rfl
@[simp] theorem writeReg_f (d : Reg) (v : Word) (s : State) : (writeReg d v s).f = s.f := by cases d <;> rfl
@[simp] theorem writeReg_mem (d : Reg) (v : Word) (s : State) : (writeReg d v s).mem = s.mem := by cases d <;> rfl
@[simp] theorem writeReg_irq (d : Reg) (v : Word) (s : State) : (writeReg d v s).irq = s.irq := by cases d <;> rfl
@[simp] theorem writeReg_keyboard (d : Reg) (v : Word) (s : State) : (writeReg d v s).keyboard = s.keyboard := by cases d <;> rfl
@[simp] theorem writeReg_deviceWrites (d : Reg) (v : Word) (s : State) : (writeReg d v s).deviceWrites = s.deviceWrites := by cases d <;> rfl
@[simp] theorem writeReg_agenda (d : Reg) (v : Word) (s : State) : (writeReg d v s).agenda = s.agenda := by cases d <;> rfl
@[simp] theorem writeReg_draws (d : Reg) (v : Word) (s : State) : (writeReg d v s).draws = s.draws := by cases d <;> rfl
@[simp] theorem writeReg_cfg (d : Reg) (v : Word) (s : State) : (writeReg d v s).cfg = s.cfg := by cases d <;> rfl

/-- What a register holds after a write to one: the fitted value there, the old value elsewhere (R92, R103). -/
theorem stored_writeReg (d q : Reg) (v : Word) (s : State) :
    (writeReg d v s).stored q = if q = d then fit d.width v else s.stored q := by
  cases d <;> cases q <;> simp [writeReg, State.stored, fit, Reg.width]
  all_goals (split <;> simp_all [eq_comm])

@[simp] theorem writeReg_sp (d : Reg) (v : Word) (s : State) :
    (writeReg d v s).sp = if d = .sp then v else s.sp := by
  have h := stored_writeReg d .sp v s
  by_cases hd : d = .sp
  · subst hd; simpa [fit, Reg.width] using h
  · have hd' : ¬ Reg.sp = d := fun e => hd e.symm
    simpa [hd, hd'] using h

/-- What a register holds after a write to SP. -/
theorem stored_setSp (q : Reg) (v : Word) (s : State) :
    (s.setP 8 v).stored q = if q = .sp then v else s.stored q := by
  have h := stored_writeReg (.p 8) q v s
  simpa [writeReg, fit, Reg.width] using h

@[simp] theorem setP_sp (v : Word) (s : State) : (s.setP 8 v).sp = v := by simp [State.sp]

end Sys2Proof.Machine
end

