-- ==== Sys2Proof/Laws/Ops.lean ====
section
/-! SUPPORT. The shared operations: for each one, once, everything it can do. Reads are given in closed form (the value seen and the
draws made), stores by the fields they leave and by what they store. -/

namespace Sys2Proof.Machine

/-! ### Bytes and words -/

@[simp] theorem fit_fit (w : Width) (v : Word) : fit w (fit w v) = fit w v := by
  cases w <;> simp [fit]

/-! ### What does not depend on draws, memory or device writes -/

@[simp] theorem State.isIo_setP (s : State) (n : Fin 10) (v a : Word) : (s.setP n v).isIo a = s.isIo a := rfl

@[simp] theorem State.isIo_writeReg (s : State) (d : Reg) (v a : Word) : (writeReg d v s).isIo a = s.isIo a := by
  simp [State.isIo]

@[simp] theorem State.stored_draws (s : State) (n : Nat) (q : Reg) : State.stored { s with draws := n } q = s.stored q := by
  cases q <;> rfl

@[simp] theorem State.stored_setIrq (s : State) (v : Vec) (b : Bool) (q : Reg) : (s.setIrq v b).stored q = s.stored q := by
  cases q <;> rfl

/-! ### More draws -/

@[simp] theorem afterDraws_r (s : State) (n : Nat) : (s.afterDraws n).r = s.r := rfl
@[simp] theorem afterDraws_p (s : State) (n : Nat) : (s.afterDraws n).p = s.p := rfl
@[simp] theorem afterDraws_vx (s : State) (n : Nat) : (s.afterDraws n).vx = s.vx := rfl
@[simp] theorem afterDraws_vy (s : State) (n : Nat) : (s.afterDraws n).vy = s.vy := rfl
@[simp] theorem afterDraws_vm (s : State) (n : Nat) : (s.afterDraws n).vm = s.vm := rfl
@[simp] theorem afterDraws_vl (s : State) (n : Nat) : (s.afterDraws n).vl = s.vl := rfl
@[simp] theorem afterDraws_tt (s : State) (n : Nat) : (s.afterDraws n).tt = s.tt := rfl
@[simp] theorem afterDraws_tm (s : State) (n : Nat) : (s.afterDraws n).tm = s.tm := rfl
@[simp] theorem afterDraws_tc (s : State) (n : Nat) : (s.afterDraws n).tc = s.tc := rfl
@[simp] theorem afterDraws_ts (s : State) (n : Nat) : (s.afterDraws n).ts = s.ts := rfl
@[simp] theorem afterDraws_pc (s : State) (n : Nat) : (s.afterDraws n).pc = s.pc := rfl
@[simp] theorem afterDraws_f (s : State) (n : Nat) : (s.afterDraws n).f = s.f := rfl
@[simp] theorem afterDraws_mem (s : State) (n : Nat) : (s.afterDraws n).mem = s.mem := rfl
@[simp] theorem afterDraws_irq (s : State) (n : Nat) : (s.afterDraws n).irq = s.irq := rfl
@[simp] theorem afterDraws_keyboard (s : State) (n : Nat) : (s.afterDraws n).keyboard = s.keyboard := rfl
@[simp] theorem afterDraws_deviceWrites (s : State) (n : Nat) : (s.afterDraws n).deviceWrites = s.deviceWrites := rfl
@[simp] theorem afterDraws_agenda (s : State) (n : Nat) : (s.afterDraws n).agenda = s.agenda := rfl
@[simp] theorem afterDraws_draws (s : State) (n : Nat) : (s.afterDraws n).draws = s.draws + n := rfl
@[simp] theorem afterDraws_cfg (s : State) (n : Nat) : (s.afterDraws n).cfg = s.cfg := rfl
@[simp] theorem afterDraws_stored (s : State) (n : Nat) (q : Reg) : (s.afterDraws n).stored q = s.stored q := by cases q <;> rfl
@[simp] theorem afterDraws_sp (s : State) (n : Nat) : (s.afterDraws n).sp = s.sp := rfl
@[simp] theorem afterDraws_isIo (s : State) (n : Nat) (a : Word) : (s.afterDraws n).isIo a = s.isIo a := rfl
@[simp] theorem afterDraws_zero (s : State) : s.afterDraws 0 = s := rfl

@[simp] theorem afterDraws_afterDraws (s : State) (n k : Nat) : (s.afterDraws n).afterDraws k = s.afterDraws (n + k) := by
  simp [State.afterDraws, Nat.add_assoc]

/-! ### Reads in closed form -/

theorem readByte_eq (a : Word) (s : State) :
    readByte a s = (s.byteSeen a 0, s.afterDraws (s.ioCount a)) := by
  unfold readByte State.byteSeen State.ioCount drawByte
  split <;> rfl

theorem readWord_eq (a : Word) (s : State) :
    readWord a s = (s.wordSeen a, s.afterDraws (s.wordDraws a)) := by
  simp only [readWord, readByte_eq, State.wordSeen, State.wordDraws, afterDraws_afterDraws]
  rfl

theorem readReg_eq (r : Reg) (s : State) :
    readReg r s = (s.regSeen r, s.afterDraws (regDraws r)) := by
  cases r <;> simp [readReg, State.regSeen, regDraws, drawWord, State.afterDraws]

/-- In RAM a 16-bit read sees the word stored there and draws nothing. -/
theorem wordSeen_ram {s : State} {a : Word} (h : s.ramAt a 2) : s.wordSeen a = s.ramWord a ∧ s.wordDraws a = 0 := by
  have h0 : s.isIo a = false := by simpa using h 0 (by simp)
  have h1 : s.isIo (a + 1) = false := by simpa using h 1 (by simp)
  simp only [State.wordSeen, State.wordDraws, State.byteSeen, State.ioCount, State.ramWord, h0, h1]
  exact ⟨rfl, rfl⟩

/-! ### Stores: the fields they leave -/

@[simp] theorem writeByte_r (a : Word) (b : Byte) (s : State) : (writeByte a b s).r = s.r := by unfold writeByte; split <;> rfl
@[simp] theorem writeByte_p (a : Word) (b : Byte) (s : State) : (writeByte a b s).p = s.p := by unfold writeByte; split <;> rfl
@[simp] theorem writeByte_vx (a : Word) (b : Byte) (s : State) : (writeByte a b s).vx = s.vx := by unfold writeByte; split <;> rfl
@[simp] theorem writeByte_vy (a : Word) (b : Byte) (s : State) : (writeByte a b s).vy = s.vy := by unfold writeByte; split <;> rfl
@[simp] theorem writeByte_vm (a : Word) (b : Byte) (s : State) : (writeByte a b s).vm = s.vm := by unfold writeByte; split <;> rfl
@[simp] theorem writeByte_vl (a : Word) (b : Byte) (s : State) : (writeByte a b s).vl = s.vl := by unfold writeByte; split <;> rfl
@[simp] theorem writeByte_tt (a : Word) (b : Byte) (s : State) : (writeByte a b s).tt = s.tt := by unfold writeByte; split <;> rfl
@[simp] theorem writeByte_tm (a : Word) (b : Byte) (s : State) : (writeByte a b s).tm = s.tm := by unfold writeByte; split <;> rfl
@[simp] theorem writeByte_tc (a : Word) (b : Byte) (s : State) : (writeByte a b s).tc = s.tc := by unfold writeByte; split <;> rfl
@[simp] theorem writeByte_ts (a : Word) (b : Byte) (s : State) : (writeByte a b s).ts = s.ts := by unfold writeByte; split <;> rfl
@[simp] theorem writeByte_pc (a : Word) (b : Byte) (s : State) : (writeByte a b s).pc = s.pc := by unfold writeByte; split <;> rfl
@[simp] theorem writeByte_f (a : Word) (b : Byte) (s : State) : (writeByte a b s).f = s.f := by unfold writeByte; split <;> rfl
@[simp] theorem writeByte_irq (a : Word) (b : Byte) (s : State) : (writeByte a b s).irq = s.irq := by unfold writeByte; split <;> rfl
@[simp] theorem writeByte_keyboard (a : Word) (b : Byte) (s : State) : (writeByte a b s).keyboard = s.keyboard := by unfold writeByte; split <;> rfl
@[simp] theorem writeByte_agenda (a : Word) (b : Byte) (s : State) : (writeByte a b s).agenda = s.agenda := by unfold writeByte; split <;> rfl
@[simp] theorem writeByte_draws (a : Word) (b : Byte) (s : State) : (writeByte a b s).draws = s.draws := by unfold writeByte; split <;> rfl
@[simp] theorem writeByte_cfg (a : Word) (b : Byte) (s : State) : (writeByte a b s).cfg = s.cfg := by unfold writeByte; split <;> rfl
@[simp] theorem writeByte_isIo (a : Word) (b : Byte) (s : State) (x : Word) : (writeByte a b s).isIo x = s.isIo x := by simp [State.isIo]
@[simp] theorem writeByte_stored (a : Word) (b : Byte) (s : State) (q : Reg) : (writeByte a b s).stored q = s.stored q := by cases q <;> simp [State.stored]
@[simp] theorem writeByte_sp (a : Word) (b : Byte) (s : State) : (writeByte a b s).sp = s.sp := by simp [State.sp]

@[simp] theorem writeWord_r (a v : Word) (s : State) : (writeWord a v s).r = s.r := by simp [writeWord]
@[simp] theorem writeWord_p (a v : Word) (s : State) : (writeWord a v s).p = s.p := by simp [writeWord]
@[simp] theorem writeWord_vx (a v : Word) (s : State) : (writeWord a v s).vx = s.vx := by simp [writeWord]
@[simp] theorem writeWord_vy (a v : Word) (s : State) : (writeWord a v s).vy = s.vy := by simp [writeWord]
@[simp] theorem writeWord_vm (a v : Word) (s : State) : (writeWord a v s).vm = s.vm := by simp [writeWord]
@[simp] theorem writeWord_vl (a v : Word) (s : State) : (writeWord a v s).vl = s.vl := by simp [writeWord]
@[simp] theorem writeWord_tt (a v : Word) (s : State) : (writeWord a v s).tt = s.tt := by simp [writeWord]
@[simp] theorem writeWord_tm (a v : Word) (s : State) : (writeWord a v s).tm = s.tm := by simp [writeWord]
@[simp] theorem writeWord_tc (a v : Word) (s : State) : (writeWord a v s).tc = s.tc := by simp [writeWord]
@[simp] theorem writeWord_ts (a v : Word) (s : State) : (writeWord a v s).ts = s.ts := by simp [writeWord]
@[simp] theorem writeWord_pc (a v : Word) (s : State) : (writeWord a v s).pc = s.pc := by simp [writeWord]
@[simp] theorem writeWord_f (a v : Word) (s : State) : (writeWord a v s).f = s.f := by simp [writeWord]
@[simp] theorem writeWord_irq (a v : Word) (s : State) : (writeWord a v s).irq = s.irq := by simp [writeWord]
@[simp] theorem writeWord_keyboard (a v : Word) (s : State) : (writeWord a v s).keyboard = s.keyboard := by simp [writeWord]
@[simp] theorem writeWord_agenda (a v : Word) (s : State) : (writeWord a v s).agenda = s.agenda := by simp [writeWord]
@[simp] theorem writeWord_draws (a v : Word) (s : State) : (writeWord a v s).draws = s.draws := by simp [writeWord]
@[simp] theorem writeWord_cfg (a v : Word) (s : State) : (writeWord a v s).cfg = s.cfg := by simp [writeWord]
@[simp] theorem writeWord_isIo (a v : Word) (s : State) (x : Word) : (writeWord a v s).isIo x = s.isIo x := by simp [State.isIo]
@[simp] theorem writeWord_stored (a v : Word) (s : State) (q : Reg) : (writeWord a v s).stored q = s.stored q := by cases q <;> simp [State.stored]
@[simp] theorem writeWord_sp (a v : Word) (s : State) : (writeWord a v s).sp = s.sp := by simp [State.sp]

@[simp] theorem writeByte_afterDraws (a : Word) (b : Byte) (s : State) (n : Nat) :
    writeByte a b (s.afterDraws n) = (writeByte a b s).afterDraws n := by
  unfold writeByte
  rw [afterDraws_isIo]
  split <;> rfl

@[simp] theorem writeWord_afterDraws (a v : Word) (s : State) (n : Nat) :
    writeWord a v (s.afterDraws n) = (writeWord a v s).afterDraws n := by
  simp [writeWord]

/-! ### Stores: what they store -/

theorem writeByte_stored_at (a : Word) (b : Byte) (s : State) : byteStored s (writeByte a b s) a b := by
  unfold byteStored writeByte
  cases h : s.isIo a <;> simp [Memory.read_write]

theorem writeWord_stored_at (a v : Word) (s : State) : wordStored s (writeWord a v s) a v := by
  obtain ⟨h1, d1⟩ := writeByte_stored_at a (hiByte v) s
  obtain ⟨h2, d2⟩ := writeByte_stored_at (a + 1) (loByte v) (writeByte a (hiByte v) s)
  refine ⟨fun x => ?_, ?_⟩
  · rw [writeWord, h2 x, h1 x, writeByte_isIo]
  · rw [writeWord, d2, d1, writeByte_isIo, List.append_assoc]

theorem writeByte_wf {s : State} (h : s.mem.wf) (a : Word) (b : Byte) : (writeByte a b s).mem.wf := by
  unfold writeByte
  split
  · exact h
  · exact Memory.wf_write h a b

theorem writeWord_wf {s : State} (h : s.mem.wf) (a v : Word) : (writeWord a v s).mem.wf :=
  writeByte_wf (writeByte_wf h _ _) _ _

/-- In RAM, reading the word just stored gives it back. -/
theorem wordStored_ramWord {s t : State} {a v : Word} (h : wordStored s t a v) (ram : s.ramAt a 2) : t.ramWord a = v := by
  have h0 : s.isIo a = false := by simpa using ram 0 (by simp)
  have h1 : s.isIo (a + 1) = false := by simpa using ram 1 (by simp)
  have hne : a ≠ a + 1 := by bv_omega
  simp only [State.ramWord, h.1, h0, h1, and_self, and_true, hne, if_false, if_true]
  exact wordOf_hi_lo v

/-! ### Single-byte reads in sequence -/

/-- Reading changes nothing but the count of draws. -/
theorem readBytes_state (n : Nat) (a : Word) (s : State) :
    (readBytes n a s).2 = { s with draws := (readBytes n a s).2.draws } := by
  induction n generalizing a s with
  | zero => rfl
  | succ n ih =>
    simp only [readBytes, readByte_eq]
    rw [ih]
    rfl

@[simp] theorem readBytes_length (n : Nat) (a : Word) (s : State) : (readBytes n a s).1.length = n := by
  induction n generalizing a s with
  | zero => rfl
  | succ n ih => simp [readBytes, ih]

/-- In RAM the bytes read are the bytes stored, and nothing is drawn. -/
theorem readBytes_ram (n : Nat) (a : Word) (s : State) (h : s.ramAt a n) :
    readBytes n a s = ((List.range n).map fun k => s.mem.read (a + BitVec.ofNat 16 k), s) := by
  induction n generalizing a with
  | zero => rfl
  | succ n ih =>
    have h0 : s.isIo a = false := by simpa using h 0 (by simp)
    have h' : s.ramAt (a + 1) n := by
      intro k hk
      have := h (k + 1) (by simpa using hk)
      rwa [show a + BitVec.ofNat 16 (k + 1) = a + 1 + BitVec.ofNat 16 k by
        apply BitVec.eq_of_toNat_eq; simp [BitVec.toNat_add]; omega] at this
    simp only [readBytes, readByte_eq, State.byteSeen, State.ioCount, h0, Bool.false_eq_true, if_false, afterDraws_zero, ih _ h']
    rw [List.range_succ_eq_map]
    simp only [List.map_cons, List.map_map, Prod.mk.injEq, List.cons.injEq, and_true]
    refine ⟨by simp, ?_⟩
    apply List.map_congr_left
    intro k _
    simp only [Function.comp_apply]
    congr 1
    apply BitVec.eq_of_toNat_eq
    simp [BitVec.toNat_add]
    omega

/-- The first `k` of `n` bytes read in sequence are those a shorter sequence reads. -/
theorem readBytes_take (k n : Nat) (a : Word) (s : State) (h : k ≤ n) :
    (readBytes n a s).1.take k = (readBytes k a s).1 := by
  induction k generalizing n a s with
  | zero => simp [readBytes]
  | succ k ih =>
    obtain ⟨n, rfl⟩ : ∃ m, n = m + 1 := ⟨n - 1, by omega⟩
    simp [readBytes, ih n _ _ (by omega)]

/-! ### The stack in closed form -/

theorem push16_eq (v : Word) (s : State) : push16 v s = writeWord (s.sp - 2) v (s.setP 8 (s.sp - 2)) := by
  simp [push16]

theorem pop16_eq (s : State) : pop16 s = (s.wordSeen s.sp, (s.afterDraws (s.wordDraws s.sp)).setP 8 (s.sp + 2)) := by
  simp only [pop16, readWord_eq]
  rfl

theorem pushReg_eq (r : Reg) (s : State) :
    pushReg r s =
      (writeWord (s.sp - 2) ((s.setP 8 (s.sp - 2)).regSeen r) (s.setP 8 (s.sp - 2))).afterDraws (regDraws r) := by
  simp only [pushReg, readReg_eq, State.setSp_eq, afterDraws_sp, setP_sp, writeWord_afterDraws]

theorem popReg_eq (r : Reg) (s : State) :
    popReg r s =
      (writeReg r (s.wordSeen s.sp) (s.afterDraws (s.wordDraws s.sp))).setP 8 ((if r = .sp then s.wordSeen s.sp else s.sp) + 2) := by
  simp only [popReg, readWord_eq, State.setSp_eq, writeReg_sp]
  rfl

@[simp] theorem push16_r (v : Word) (s : State) : (push16 v s).r = s.r := by simp [push16_eq]
@[simp] theorem push16_vx (v : Word) (s : State) : (push16 v s).vx = s.vx := by simp [push16_eq]
@[simp] theorem push16_vy (v : Word) (s : State) : (push16 v s).vy = s.vy := by simp [push16_eq]
@[simp] theorem push16_vm (v : Word) (s : State) : (push16 v s).vm = s.vm := by simp [push16_eq]
@[simp] theorem push16_vl (v : Word) (s : State) : (push16 v s).vl = s.vl := by simp [push16_eq]
@[simp] theorem push16_tt (v : Word) (s : State) : (push16 v s).tt = s.tt := by simp [push16_eq]
@[simp] theorem push16_tm (v : Word) (s : State) : (push16 v s).tm = s.tm := by simp [push16_eq]
@[simp] theorem push16_tc (v : Word) (s : State) : (push16 v s).tc = s.tc := by simp [push16_eq]
@[simp] theorem push16_ts (v : Word) (s : State) : (push16 v s).ts = s.ts := by simp [push16_eq]
@[simp] theorem push16_pc (v : Word) (s : State) : (push16 v s).pc = s.pc := by simp [push16_eq]
@[simp] theorem push16_f (v : Word) (s : State) : (push16 v s).f = s.f := by simp [push16_eq]
@[simp] theorem push16_irq (v : Word) (s : State) : (push16 v s).irq = s.irq := by simp [push16_eq]
@[simp] theorem push16_keyboard (v : Word) (s : State) : (push16 v s).keyboard = s.keyboard := by simp [push16_eq]
@[simp] theorem push16_agenda (v : Word) (s : State) : (push16 v s).agenda = s.agenda := by simp [push16_eq]
@[simp] theorem push16_draws (v : Word) (s : State) : (push16 v s).draws = s.draws := by simp [push16_eq]
@[simp] theorem push16_cfg (v : Word) (s : State) : (push16 v s).cfg = s.cfg := by simp [push16_eq]
@[simp] theorem push16_isIo (v : Word) (s : State) (x : Word) : (push16 v s).isIo x = s.isIo x := by simp [push16_eq]
@[simp] theorem push16_sp (v : Word) (s : State) : (push16 v s).sp = s.sp - 2 := by simp [push16_eq]
theorem push16_stored (v : Word) (s : State) (q : Reg) : (push16 v s).stored q = if q = .sp then s.sp - 2 else s.stored q := by
  simp [push16_eq, stored_setSp]
theorem push16_stored_at (v : Word) (s : State) : wordStored s (push16 v s) (s.sp - 2) v := by
  obtain ⟨h1, h2⟩ := writeWord_stored_at (s.sp - 2) v (s.setP 8 (s.sp - 2))
  rw [push16_eq]
  exact ⟨h1, h2⟩

@[simp] theorem pushReg_r (r : Reg) (s : State) : (pushReg r s).r = s.r := by simp [pushReg_eq]
@[simp] theorem pushReg_vx (r : Reg) (s : State) : (pushReg r s).vx = s.vx := by simp [pushReg_eq]
@[simp] theorem pushReg_vy (r : Reg) (s : State) : (pushReg r s).vy = s.vy := by simp [pushReg_eq]
@[simp] theorem pushReg_vm (r : Reg) (s : State) : (pushReg r s).vm = s.vm := by simp [pushReg_eq]
@[simp] theorem pushReg_vl (r : Reg) (s : State) : (pushReg r s).vl = s.vl := by simp [pushReg_eq]
@[simp] theorem pushReg_tt (r : Reg) (s : State) : (pushReg r s).tt = s.tt := by simp [pushReg_eq]
@[simp] theorem pushReg_tm (r : Reg) (s : State) : (pushReg r s).tm = s.tm := by simp [pushReg_eq]
@[simp] theorem pushReg_tc (r : Reg) (s : State) : (pushReg r s).tc = s.tc := by simp [pushReg_eq]
@[simp] theorem pushReg_ts (r : Reg) (s : State) : (pushReg r s).ts = s.ts := by simp [pushReg_eq]
@[simp] theorem pushReg_pc (r : Reg) (s : State) : (pushReg r s).pc = s.pc := by simp [pushReg_eq]
@[simp] theorem pushReg_f (r : Reg) (s : State) : (pushReg r s).f = s.f := by simp [pushReg_eq]
@[simp] theorem pushReg_irq (r : Reg) (s : State) : (pushReg r s).irq = s.irq := by simp [pushReg_eq]
@[simp] theorem pushReg_keyboard (r : Reg) (s : State) : (pushReg r s).keyboard = s.keyboard := by simp [pushReg_eq]
@[simp] theorem pushReg_agenda (r : Reg) (s : State) : (pushReg r s).agenda = s.agenda := by simp [pushReg_eq]
@[simp] theorem pushReg_draws (r : Reg) (s : State) : (pushReg r s).draws = s.draws + regDraws r := by simp [pushReg_eq]
@[simp] theorem pushReg_cfg (r : Reg) (s : State) : (pushReg r s).cfg = s.cfg := by simp [pushReg_eq]
@[simp] theorem pushReg_isIo (r : Reg) (s : State) (x : Word) : (pushReg r s).isIo x = s.isIo x := by simp [pushReg_eq]
@[simp] theorem pushReg_sp (r : Reg) (s : State) : (pushReg r s).sp = s.sp - 2 := by simp [pushReg_eq]
theorem pushReg_stored (r : Reg) (s : State) (q : Reg) : (pushReg r s).stored q = if q = .sp then s.sp - 2 else s.stored q := by
  simp [pushReg_eq, stored_setSp]
theorem pushReg_stored_at (r : Reg) (s : State) : wordStored s (pushReg r s) (s.sp - 2) ((s.setP 8 (s.sp - 2)).regSeen r) := by
  obtain ⟨h1, h2⟩ := writeWord_stored_at (s.sp - 2) ((s.setP 8 (s.sp - 2)).regSeen r) (s.setP 8 (s.sp - 2))
  rw [pushReg_eq]
  exact ⟨h1, h2⟩

@[simp] theorem pushFlags_r (s : State) : (pushFlags s).r = s.r := by simp [pushFlags]
@[simp] theorem pushFlags_vx (s : State) : (pushFlags s).vx = s.vx := by simp [pushFlags]
@[simp] theorem pushFlags_vy (s : State) : (pushFlags s).vy = s.vy := by simp [pushFlags]
@[simp] theorem pushFlags_vm (s : State) : (pushFlags s).vm = s.vm := by simp [pushFlags]
@[simp] theorem pushFlags_vl (s : State) : (pushFlags s).vl = s.vl := by simp [pushFlags]
@[simp] theorem pushFlags_tt (s : State) : (pushFlags s).tt = s.tt := by simp [pushFlags]
@[simp] theorem pushFlags_tm (s : State) : (pushFlags s).tm = s.tm := by simp [pushFlags]
@[simp] theorem pushFlags_tc (s : State) : (pushFlags s).tc = s.tc := by simp [pushFlags]
@[simp] theorem pushFlags_ts (s : State) : (pushFlags s).ts = s.ts := by simp [pushFlags]
@[simp] theorem pushFlags_pc (s : State) : (pushFlags s).pc = s.pc := by simp [pushFlags]
@[simp] theorem pushFlags_f (s : State) : (pushFlags s).f = s.f := by simp [pushFlags]
@[simp] theorem pushFlags_irq (s : State) : (pushFlags s).irq = s.irq := by simp [pushFlags]
@[simp] theorem pushFlags_keyboard (s : State) : (pushFlags s).keyboard = s.keyboard := by simp [pushFlags]
@[simp] theorem pushFlags_agenda (s : State) : (pushFlags s).agenda = s.agenda := by simp [pushFlags]
@[simp] theorem pushFlags_draws (s : State) : (pushFlags s).draws = s.draws := by simp [pushFlags]
@[simp] theorem pushFlags_cfg (s : State) : (pushFlags s).cfg = s.cfg := by simp [pushFlags]
@[simp] theorem pushFlags_isIo (s : State) (x : Word) : (pushFlags s).isIo x = s.isIo x := by simp [pushFlags]
@[simp] theorem pushFlags_sp (s : State) : (pushFlags s).sp = s.sp - 2 := by simp [pushFlags]
theorem pushFlags_stored (s : State) (q : Reg) : (pushFlags s).stored q = if q = .sp then s.sp - 2 else s.stored q :=
  push16_stored _ s q
theorem pushFlags_stored_at (s : State) : wordStored s (pushFlags s) (s.sp - 2) (flagsImage s.f) :=
  push16_stored_at _ s

@[simp] theorem pushPc_r (s : State) : (pushPc s).r = s.r := by simp [pushPc]
@[simp] theorem pushPc_vx (s : State) : (pushPc s).vx = s.vx := by simp [pushPc]
@[simp] theorem pushPc_vy (s : State) : (pushPc s).vy = s.vy := by simp [pushPc]
@[simp] theorem pushPc_vm (s : State) : (pushPc s).vm = s.vm := by simp [pushPc]
@[simp] theorem pushPc_vl (s : State) : (pushPc s).vl = s.vl := by simp [pushPc]
@[simp] theorem pushPc_tt (s : State) : (pushPc s).tt = s.tt := by simp [pushPc]
@[simp] theorem pushPc_tm (s : State) : (pushPc s).tm = s.tm := by simp [pushPc]
@[simp] theorem pushPc_tc (s : State) : (pushPc s).tc = s.tc := by simp [pushPc]
@[simp] theorem pushPc_ts (s : State) : (pushPc s).ts = s.ts := by simp [pushPc]
@[simp] theorem pushPc_pc (s : State) : (pushPc s).pc = s.pc := by simp [pushPc]
@[simp] theorem pushPc_f (s : State) : (pushPc s).f = s.f := by simp [pushPc]
@[simp] theorem pushPc_irq (s : State) : (pushPc s).irq = s.irq := by simp [pushPc]
@[simp] theorem pushPc_keyboard (s : State) : (pushPc s).keyboard = s.keyboard := by simp [pushPc]
@[simp] theorem pushPc_agenda (s : State) : (pushPc s).agenda = s.agenda := by simp [pushPc]
@[simp] theorem pushPc_draws (s : State) : (pushPc s).draws = s.draws := by simp [pushPc]
@[simp] theorem pushPc_cfg (s : State) : (pushPc s).cfg = s.cfg := by simp [pushPc]
@[simp] theorem pushPc_isIo (s : State) (x : Word) : (pushPc s).isIo x = s.isIo x := by simp [pushPc]
@[simp] theorem pushPc_sp (s : State) : (pushPc s).sp = s.sp - 2 := by simp [pushPc]
theorem pushPc_stored (s : State) (q : Reg) : (pushPc s).stored q = if q = .sp then s.sp - 2 else s.stored q :=
  push16_stored _ s q
theorem pushPc_stored_at (s : State) : wordStored s (pushPc s) (s.sp - 2) s.pc :=
  push16_stored_at _ s

/-! ### Canonical memory is kept by every shared operation -/

theorem push16_wf {s : State} (h : s.mem.wf) (v : Word) : (push16 v s).mem.wf := by
  rw [push16_eq]
  exact writeWord_wf (s := s.setP 8 (s.sp - 2)) h _ _

theorem pushReg_wf {s : State} (h : s.mem.wf) (r : Reg) : (pushReg r s).mem.wf := by
  rw [pushReg_eq]
  exact writeWord_wf (s := s.setP 8 (s.sp - 2)) h _ _

/-! ### Where a pushed word lies -/

/-- A stored word leaves every address outside its two bytes. -/
theorem wordStored_other {s t : State} {a v x : Word} (h : wordStored s t a v) (h0 : x ≠ a) (h1 : x ≠ a + 1) :
    t.mem.read x = s.mem.read x := by
  rw [h.1 x, if_neg fun e => h1 e.1, if_neg fun e => h0 e.1]

theorem byteStored_other {s t : State} {a x : Word} {b : Byte} (h : byteStored s t a b) (h0 : x ≠ a) :
    t.mem.read x = s.mem.read x := by
  rw [h.1 x, if_neg fun e => h0 e.1]

/-- In RAM a stored word writes to no device. -/
theorem wordStored_ram_devices {s t : State} {a v : Word} (h : wordStored s t a v) (ram : s.ramAt a 2) :
    t.deviceWrites = s.deviceWrites := by
  have h0 : s.isIo a = false := by simpa using ram 0 (by simp)
  have h1 : s.isIo (a + 1) = false := by simpa using ram 1 (by simp)
  rw [h.2, h0, h1]
  rfl

end Sys2Proof.Machine
end

