-- ==== Sys2Proof/Laws/Words.lean ====
section
/-! SUPPORT. Addresses near the stack pointer: arithmetic modulo 2^16 (spec/20_memory.md R42) with offsets that are numbers, and the
fields of the update `fit`. -/

namespace Sys2Proof.Machine

theorem word_sub_sub (a : Word) (i j : Nat) : a - BitVec.ofNat 16 i - BitVec.ofNat 16 j = a - BitVec.ofNat 16 (i + j) := by
  rw [BitVec.ofNat_add]; grind

theorem word_sub_succ (a : Word) (j : Nat) : a - BitVec.ofNat 16 (j + 1) + 1 = a - BitVec.ofNat 16 j := by
  rw [BitVec.ofNat_add]; grind

theorem word_sub_add (a : Word) (i j : Nat) : a - BitVec.ofNat 16 (i + j) + BitVec.ofNat 16 j = a - BitVec.ofNat 16 i := by
  rw [BitVec.ofNat_add]; grind

theorem word_add_add (a : Word) (i j : Nat) : a + BitVec.ofNat 16 i + BitVec.ofNat 16 j = a + BitVec.ofNat 16 (i + j) := by
  rw [BitVec.ofNat_add]; grind

theorem word_sub_two (a : Word) : a - 2 = a - BitVec.ofNat 16 2 := rfl

theorem word_add_two (a : Word) : a + 2 = a + BitVec.ofNat 16 2 := rfl

/-- Different offsets below one address, less than 2^16 apart, are different addresses. -/
theorem word_sub_ofNat_ne (a : Word) {i j : Nat} (h : i < j) (hj : j - i < 65536) :
    a - BitVec.ofNat 16 i ≠ a - BitVec.ofNat 16 j := by
  intro e
  have e := congrArg BitVec.toNat e
  simp only [BitVec.toNat_sub, BitVec.toNat_ofNat] at e
  omega

/-- An address outside an access of `n` bytes that ends below `a` is none of the `n` addresses below `a`. -/
theorem touches_not {a x : Word} {n : Nat} (h : ¬ touches (a - BitVec.ofNat 16 n) n x) (j : Nat) (h1 : 1 ≤ j) (h2 : j ≤ n) :
    x ≠ a - BitVec.ofNat 16 j := by
  rintro rfl
  refine h ⟨n - j, by simp; omega, ?_⟩
  obtain ⟨k, rfl⟩ : ∃ k, n = j + k := ⟨n - j, by omega⟩
  rw [Nat.add_sub_cancel_left, word_sub_add]

/-- Each of the `n` addresses below `a` is RAM if the access of `n` bytes that ends below `a` is. -/
theorem ramAt_below {s : State} {a : Word} {n : Nat} (h : s.ramAt (a - BitVec.ofNat 16 n) n) (j : Nat) (h1 : 1 ≤ j) (h2 : j ≤ n) :
    s.isIo (a - BitVec.ofNat 16 j) = false := by
  have := h (n - j) (by simp; omega)
  obtain ⟨k, rfl⟩ : ∃ k, n = j + k := ⟨n - j, by omega⟩
  rwa [Nat.add_sub_cancel_left, word_sub_add] at this

/-- A part of an access in RAM is in RAM. -/
theorem ramAt_part {s : State} {a : Word} {n : Nat} (h : s.ramAt a n) (i k : Nat) (hk : i + k ≤ n) :
    s.ramAt (a + BitVec.ofNat 16 i) k := by
  intro j hj
  simp only [List.mem_range] at hj
  rw [word_add_add]
  exact h (i + j) (by simp; omega)

theorem ramAt_prefix {s : State} {a : Word} {n : Nat} (h : s.ramAt a n) (k : Nat) (hk : k ≤ n) : s.ramAt a k :=
  fun j hj => h j (by simp at hj ⊢; omega)

theorem fit_eq (w : Width) (v : Word) : fit w v = if w = .byte then (v.setWidth 8).setWidth 16 else v := by
  cases w <;> simp [fit, zextByte, loByte_eq]

/-- What a register holds fits its width. -/
@[simp] theorem fit_stored (s : State) (q : Reg) : fit q.width (s.stored q) = s.stored q := by
  cases q <;> simp [fit, Reg.width, State.stored]

theorem zextByte_inj {a b : Byte} (h : zextByte a = zextByte b) : a = b := by simpa using congrArg loByte h

@[simp] theorem effectiveAddress_afterDraws (m : MemRef) (s : State) (n : Nat) :
    effectiveAddress m (s.afterDraws n) = effectiveAddress m s := by
  cases m <;> simp [effectiveAddress]

end Sys2Proof.Machine
end

