-- ==== Sys2Proof/Laws/Stack.lean ====
section
/-! SUPPORT. The stack: popping one register, the flags or PC in closed form, and what pushing and popping a list of registers does
(spec/41_stack.md). -/

namespace Sys2Proof.Machine

/-! ### One pop -/

theorem popFlags_eq (s : State) :
    popFlags s = ((s.afterDraws (s.wordDraws s.sp)).setP 8 (s.sp + 2)).setF (flagsOfImage (s.wordSeen s.sp)) := by
  simp [popFlags, pop16_eq]

theorem popPc_eq (s : State) :
    popPc s = ((s.afterDraws (s.wordDraws s.sp)).setP 8 (s.sp + 2)).setPc (s.wordSeen s.sp) := by
  simp [popPc, pop16_eq]

theorem popReg_ram {r : Reg} {s : State} (h : s.ramAt s.sp 2) :
    popReg r s = (writeReg r (s.ramWord s.sp) s).setP 8 ((if r = .sp then s.ramWord s.sp else s.sp) + 2) := by
  rw [popReg_eq, (wordSeen_ram h).1, (wordSeen_ram h).2, afterDraws_zero]

theorem popFlags_ram {s : State} (h : s.ramAt s.sp 2) :
    popFlags s = (s.setP 8 (s.sp + 2)).setF (flagsOfImage (s.ramWord s.sp)) := by
  rw [popFlags_eq, (wordSeen_ram h).1, (wordSeen_ram h).2, afterDraws_zero]

theorem popPc_ram {s : State} (h : s.ramAt s.sp 2) :
    popPc s = (s.setP 8 (s.sp + 2)).setPc (s.ramWord s.sp) := by
  rw [popPc_eq, (wordSeen_ram h).1, (wordSeen_ram h).2, afterDraws_zero]

@[simp] theorem popReg_pc (r : Reg) (s : State) : (popReg r s).pc = s.pc := by simp [popReg_eq]
@[simp] theorem popReg_f (r : Reg) (s : State) : (popReg r s).f = s.f := by simp [popReg_eq]
@[simp] theorem popReg_mem (r : Reg) (s : State) : (popReg r s).mem = s.mem := by simp [popReg_eq]
@[simp] theorem popReg_irq (r : Reg) (s : State) : (popReg r s).irq = s.irq := by simp [popReg_eq]
@[simp] theorem popReg_keyboard (r : Reg) (s : State) : (popReg r s).keyboard = s.keyboard := by simp [popReg_eq]
@[simp] theorem popReg_deviceWrites (r : Reg) (s : State) : (popReg r s).deviceWrites = s.deviceWrites := by simp [popReg_eq]
@[simp] theorem popReg_agenda (r : Reg) (s : State) : (popReg r s).agenda = s.agenda := by simp [popReg_eq]
@[simp] theorem popReg_cfg (r : Reg) (s : State) : (popReg r s).cfg = s.cfg := by simp [popReg_eq]
@[simp] theorem popReg_isIo (r : Reg) (s : State) (x : Word) : (popReg r s).isIo x = s.isIo x := by simp [State.isIo]
@[simp] theorem popFlags_pc (s : State) : (popFlags s).pc = s.pc := by simp [popFlags_eq]
@[simp] theorem popFlags_mem (s : State) : (popFlags s).mem = s.mem := by simp [popFlags_eq]
@[simp] theorem popFlags_irq (s : State) : (popFlags s).irq = s.irq := by simp [popFlags_eq]
@[simp] theorem popFlags_keyboard (s : State) : (popFlags s).keyboard = s.keyboard := by simp [popFlags_eq]
@[simp] theorem popFlags_deviceWrites (s : State) : (popFlags s).deviceWrites = s.deviceWrites := by simp [popFlags_eq]
@[simp] theorem popFlags_agenda (s : State) : (popFlags s).agenda = s.agenda := by simp [popFlags_eq]
@[simp] theorem popFlags_cfg (s : State) : (popFlags s).cfg = s.cfg := by simp [popFlags_eq]
@[simp] theorem popFlags_isIo (s : State) (x : Word) : (popFlags s).isIo x = s.isIo x := by simp [State.isIo]
@[simp] theorem popFlags_sp (s : State) : (popFlags s).sp = s.sp + 2 := by rw [popFlags_eq]; exact setP_sp _ _
theorem popFlags_stored (s : State) (q : Reg) : (popFlags s).stored q = if q = .sp then s.sp + 2 else s.stored q := by
  rw [popFlags_eq, State.setF_stored, stored_setSp, afterDraws_stored]
@[simp] theorem popPc_f (s : State) : (popPc s).f = s.f := by simp [popPc_eq]
@[simp] theorem popPc_mem (s : State) : (popPc s).mem = s.mem := by simp [popPc_eq]
@[simp] theorem popPc_irq (s : State) : (popPc s).irq = s.irq := by simp [popPc_eq]
@[simp] theorem popPc_keyboard (s : State) : (popPc s).keyboard = s.keyboard := by simp [popPc_eq]
@[simp] theorem popPc_deviceWrites (s : State) : (popPc s).deviceWrites = s.deviceWrites := by simp [popPc_eq]
@[simp] theorem popPc_agenda (s : State) : (popPc s).agenda = s.agenda := by simp [popPc_eq]
@[simp] theorem popPc_cfg (s : State) : (popPc s).cfg = s.cfg := by simp [popPc_eq]
@[simp] theorem popPc_isIo (s : State) (x : Word) : (popPc s).isIo x = s.isIo x := by simp [State.isIo]
@[simp] theorem popPc_sp (s : State) : (popPc s).sp = s.sp + 2 := by rw [popPc_eq]; exact setP_sp _ _
theorem popPc_stored (s : State) (q : Reg) : (popPc s).stored q = if q = .sp then s.sp + 2 else s.stored q := by
  rw [popPc_eq, State.setPc_stored, stored_setSp, afterDraws_stored]

/-- The flags register is its own image's low 12 bits (R26). -/
@[simp] theorem flagsOfImage_flagsImage (f : FlagsWord) : flagsOfImage (flagsImage f) = f := by
  apply BitVec.eq_of_toNat_eq
  simp [flagsOfImage, flagsImage]

/-! ### Pushing a list of registers -/

theorem pushRegs_isIo (rs : List Reg) (s : State) (x : Word) : (pushRegs rs s).isIo x = s.isIo x := by
  induction rs generalizing s with
  | nil => rfl
  | cons r rs ih => simp [pushRegs, ih]

theorem pushRegs_wf {s : State} (h : s.mem.wf) (rs : List Reg) : (pushRegs rs s).mem.wf := by
  induction rs generalizing s with
  | nil => exact h
  | cons r rs ih => exact ih (pushReg_wf h r)

/-- SP is 2 lower per register; no other register, not PC and not F change; nothing is drawn unless TT is among them. -/
theorem pushRegs_fields (rs : List Reg) (s : State) (h : .tt ∉ rs) :
    (pushRegs rs s).sp = s.sp - BitVec.ofNat 16 (2 * rs.length) ∧ regsSameExcept [.sp] s (pushRegs rs s) ∧
    (pushRegs rs s).pc = s.pc ∧ (pushRegs rs s).f = s.f ∧ outsideSame s (pushRegs rs s) ∧ (pushRegs rs s).draws = s.draws := by
  induction rs generalizing s with
  | nil => simp [pushRegs, regsSameExcept, outsideSame]
  | cons r rs ih =>
    simp only [List.mem_cons, not_or] at h
    obtain ⟨h1, h2, h3, h4, ⟨a, b, c, d⟩, h6⟩ := ih (pushReg r s) h.2
    refine ⟨?_, fun q hq => ?_, by simp [pushRegs, h3], by simp [pushRegs, h4],
      ⟨by simp [pushRegs, a], by simp [pushRegs, b], by simp [pushRegs, c], by simp [pushRegs, d]⟩, ?_⟩
    · simp only [pushRegs, h1, pushReg_sp, List.length_cons, word_sub_two, word_sub_sub]
      congr 2; omega
    · rw [pushRegs, h2 q hq, pushReg_stored, if_neg (by simpa using hq)]
    · simp [pushRegs, h6, regDraws, Ne.symm h.1]

/-- Bytes outside the pushed entries are left. -/
theorem pushRegs_other (rs : List Reg) (s : State) (x : Word)
    (hx : ∀ j, 1 ≤ j → j ≤ 2 * rs.length → x ≠ s.sp - BitVec.ofNat 16 j) :
    (pushRegs rs s).mem.read x = s.mem.read x := by
  induction rs generalizing s with
  | nil => rfl
  | cons r rs ih =>
    simp only [List.length_cons] at hx
    rw [pushRegs, ih]
    · refine wordStored_other (pushReg_stored_at r s) (hx 2 (by omega) (by omega)) ?_
      rw [word_sub_two, word_sub_succ]
      exact hx 1 (by omega) (by omega)
    · intro j h1 h2
      rw [pushReg_sp, word_sub_two, word_sub_sub]
      exact hx (2 + j) (by omega) (by omega)

/-- In RAM the entry of each register lies in its place: what the register holds, for SP the decremented value (R102). -/
theorem pushRegs_entry (rs : List Reg) (s : State) (h : .tt ∉ rs) (hl : rs.length ≤ 32767)
    (ram : ∀ j, 1 ≤ j → j ≤ 2 * rs.length → s.isIo (s.sp - BitVec.ofNat 16 j) = false) :
    (∀ k (hk : k < rs.length), (pushRegs rs s).ramWord (s.sp - BitVec.ofNat 16 (2 * k + 2)) =
      if rs[k] = .sp then s.sp - BitVec.ofNat 16 (2 * k + 2) else s.stored rs[k]) ∧
    (pushRegs rs s).deviceWrites = s.deviceWrites := by
  induction rs generalizing s with
  | nil => exact ⟨fun k hk => absurd hk (by simp), rfl⟩
  | cons r rs ih =>
    simp only [List.mem_cons, not_or] at h
    simp only [List.length_cons] at hl ram
    have ramw : s.ramAt (s.sp - 2) 2 := by
      intro k hk
      simp only [List.mem_range] at hk
      match k, hk with
      | 0, _ => simpa using ram 2 (by omega) (by omega)
      | 1, _ =>
        have := ram 1 (by omega) (by omega)
        rwa [← word_sub_succ] at this
    have ih := ih (pushReg r s) h.2 (by omega) (by
      intro j h1 h2
      rw [pushReg_isIo, pushReg_sp, word_sub_two, word_sub_sub]
      exact ram (2 + j) (by omega) (by omega))
    refine ⟨fun k hk => ?_, by rw [pushRegs, ih.2]; exact wordStored_ram_devices (pushReg_stored_at r s) ramw⟩
    cases k with
    | zero =>
      have keep (i : Nat) (hi : i < 2) :
          (pushRegs rs (pushReg r s)).mem.read (s.sp - BitVec.ofNat 16 (i + 1)) =
            (pushReg r s).mem.read (s.sp - BitVec.ofNat 16 (i + 1)) := by
        apply pushRegs_other
        intro j h1 h2
        rw [pushReg_sp, word_sub_two, word_sub_sub]
        exact word_sub_ofNat_ne _ (by omega) (by omega)
      have := wordStored_ramWord (pushReg_stored_at r s) ramw
      simp only [State.ramWord, pushRegs, List.getElem_cons_zero, Nat.mul_zero, Nat.zero_add, word_sub_two] at this ⊢
      rw [word_sub_succ] at this ⊢
      rw [keep 1 (by omega), keep 0 (by omega), this]
      unfold State.regSeen
      rw [stored_setSp, if_neg (Ne.symm h.1)]
    | succ k =>
      have := ih.1 k (by simpa using hk)
      rw [pushReg_sp, word_sub_two, word_sub_sub, pushReg_stored] at this
      simp only [List.getElem_cons_succ, pushRegs]
      rw [show 2 * (k + 1) + 2 = 2 + (2 * k + 2) by omega, this]
      split
      · rfl
      · simp [*]

/-! ### Popping a list of registers -/

/-- Only the listed registers and SP change; nothing is stored. -/
theorem popRegs_frame (rs : List Reg) (s : State) :
    regsSameExcept (.sp :: rs) s (popRegs rs s) ∧ (popRegs rs s).pc = s.pc ∧ (popRegs rs s).f = s.f ∧
    nothingStored s (popRegs rs s) ∧ outsideSame s (popRegs rs s) := by
  induction rs generalizing s with
  | nil => simp [popRegs, regsSameExcept, nothingStored, outsideSame]
  | cons r rs ih =>
    obtain ⟨h1, h2, h3, ⟨h4, h5⟩, a, b, c, d⟩ := ih (popReg r s)
    simp only [popRegs]
    refine ⟨fun q hq => ?_, by simp [h2], by simp [h3], ⟨by simp [h4], by simp [h5]⟩, by simp [a], by simp [b], by simp [c],
      by simp [d]⟩
    simp only [List.mem_cons, not_or] at hq
    rw [h1 q (by simp [hq]), popReg_eq, stored_setSp, if_neg hq.1, stored_writeReg, if_neg hq.2.1, afterDraws_stored]

/-- With the entries in RAM each register, SP not among them, holds its entry, cut to its width, and SP is 2 higher per register. -/
theorem popRegs_ram (rs : List Reg) (s : State) (hsp : .sp ∉ rs) (hn : rs.Nodup)
    (ram : ∀ j < 2 * rs.length, s.isIo (s.sp + BitVec.ofNat 16 j) = false) :
    (popRegs rs s).sp = s.sp + BitVec.ofNat 16 (2 * rs.length) ∧ (popRegs rs s).draws = s.draws ∧
    ∀ k (hk : k < rs.length),
      (popRegs rs s).stored rs[k] = fit rs[k].width (s.ramWord (s.sp + BitVec.ofNat 16 (2 * k))) := by
  induction rs generalizing s with
  | nil => simp [popRegs]
  | cons r rs ih =>
    simp only [List.mem_cons, not_or] at hsp
    obtain ⟨hr, hn⟩ := List.nodup_cons.mp hn
    simp only [List.length_cons] at ram
    have ramw : s.ramAt s.sp 2 := fun k hk => ram k (by simp at hk; omega)
    have e := popReg_ram (r := r) ramw
    rw [if_neg (Ne.symm hsp.1)] at e
    have sp1 : (popReg r s).sp = s.sp + 2 := by rw [e]; exact setP_sp _ _
    have m1 (x : Word) : (popReg r s).ramWord x = s.ramWord x := by simp [State.ramWord, popReg_mem]
    obtain ⟨h1, h2, h3⟩ := ih (popReg r s) hsp.2 hn (by
      intro j hj
      have : (popReg r s).isIo (s.sp + BitVec.ofNat 16 (2 + j)) = false := by
        rw [e]; simpa using ram (2 + j) (by omega)
      rwa [sp1, word_add_two, word_add_add])
    simp only [popRegs]
    refine ⟨?_, by rw [h2, e]; simp, fun k hk => ?_⟩
    · rw [h1, sp1, word_add_two, word_add_add, List.length_cons]
      congr 2; omega
    · cases k with
      | zero =>
        obtain ⟨f1, -⟩ := popRegs_frame rs (popReg r s)
        simp only [List.getElem_cons_zero, Nat.mul_zero, BitVec.add_zero]
        rw [f1 r (by simp [hr, Ne.symm hsp.1]), e, stored_setSp, if_neg (Ne.symm hsp.1), stored_writeReg, if_pos rfl]
      | succ k =>
        simp only [List.getElem_cons_succ]
        rw [h3 k (by simpa using hk), sp1, m1, word_add_two, word_add_add]
        congr 4; omega

/-! ### PUSHA and POPA -/

/-- What POPA pops after F, P9 and P8: P7-P0, R9-R0 (R105). -/
abbrev popaTail : List Reg :=
  [.p 7, .p 6, .p 5, .p 4, .p 3, .p 2, .p 1, .p 0, .r 9, .r 8, .r 7, .r 6, .r 5, .r 4, .r 3, .r 2, .r 1, .r 0]

theorem popRegs_popa (s : State) : popRegs pushaOrder.reverse s = popRegs popaTail (popReg (.p 8) (popReg (.p 9) s)) := rfl

theorem pushaOrder_length : pushaOrder.length = 20 := rfl

end Sys2Proof.Machine
end

