-- ==== Sys2Proof/Laws/Handler.lean ====
section
/-! SUPPORT. Entering a handler and returning from one: what each can do, once (spec/60_exceptions.md R148, R149, R154). -/

namespace Sys2Proof.Machine

/-! ### The flags -/

theorem flagOf_clearI (f : FlagsWord) (x : Flag) : flagOf (clearI f) x = if x = .i then false else flagOf f x := by
  cases x <;> simp [flagOf, clearI, Flag.bit]

/-! ### The jump through the vector table -/

theorem jumpToVector_eq (v : Vec) (s : State) :
    jumpToVector v s =
      match s.cfg.vectorFetch with
      | .addressInSlot => (s.afterDraws (s.wordDraws (vectorEntry v))).setPc (s.wordSeen (vectorEntry v))
      | .executeSlot => s.setPc (vectorEntry v) := by
  cases h : s.cfg.vectorFetch <;> simp [jumpToVector, h, readWord_eq]

/-- The jump changes PC and, where it reads a table entry in `IO_REGION`, the count of draws. -/
theorem jumpToVector_frame (v : Vec) (s : State) :
    jumpToVector v s = { s with pc := (jumpToVector v s).pc, draws := (jumpToVector v s).draws } := by
  rw [jumpToVector_eq]
  cases s.cfg.vectorFetch <;> rfl

theorem jumpToVector_executeSlot {s : State} (v : Vec) (h : s.cfg.vectorFetch = .executeSlot) :
    (jumpToVector v s).pc = vectorEntry v := by
  rw [jumpToVector_eq, h]
  rfl

theorem jumpToVector_addressInSlot {s : State} (v : Vec) (h : s.cfg.vectorFetch = .addressInSlot)
    (ram : s.ramAt (vectorEntry v) 2) : (jumpToVector v s).pc = s.ramWord (vectorEntry v) := by
  rw [jumpToVector_eq, h, ← (wordSeen_ram ram).1]
  rfl

@[simp] theorem jumpToVector_mem (v : Vec) (s : State) : (jumpToVector v s).mem = s.mem := by rw [jumpToVector_frame]
@[simp] theorem jumpToVector_irq (v : Vec) (s : State) : (jumpToVector v s).irq = s.irq := by rw [jumpToVector_frame]
@[simp] theorem jumpToVector_keyboard (v : Vec) (s : State) : (jumpToVector v s).keyboard = s.keyboard := by
  rw [jumpToVector_frame]
@[simp] theorem jumpToVector_agenda (v : Vec) (s : State) : (jumpToVector v s).agenda = s.agenda := by rw [jumpToVector_frame]
@[simp] theorem jumpToVector_cfg (v : Vec) (s : State) : (jumpToVector v s).cfg = s.cfg := by rw [jumpToVector_frame]
@[simp] theorem jumpToVector_f (v : Vec) (s : State) : (jumpToVector v s).f = s.f := by rw [jumpToVector_frame]
@[simp] theorem jumpToVector_sp (v : Vec) (s : State) : (jumpToVector v s).sp = s.sp := by rw [jumpToVector_frame]; rfl
@[simp] theorem jumpToVector_deviceWrites (v : Vec) (s : State) : (jumpToVector v s).deviceWrites = s.deviceWrites := by
  rw [jumpToVector_frame]
@[simp] theorem jumpToVector_stored (v : Vec) (s : State) (q : Reg) : (jumpToVector v s).stored q = s.stored q := by
  rw [jumpToVector_frame]; cases q <;> rfl

/-! ### The two pushes -/

/-- The state of handler entry before the jump. -/
abbrev handlerPushed (s : State) : State := pushFlags (pushPc s)

theorem handlerPushed_sp (s : State) : (handlerPushed s).sp = s.sp - BitVec.ofNat 16 4 := by
  rw [pushFlags_sp, pushPc_sp, word_sub_two, word_sub_two, word_sub_sub]

theorem handlerPushed_other {s : State} {x : Word} (h : ¬ touches (s.sp - BitVec.ofNat 16 4) 4 x) :
    (handlerPushed s).mem.read x = s.mem.read x := by
  have hx := touches_not h
  have hF := pushFlags_stored_at (pushPc s)
  rw [pushPc_sp, word_sub_two, word_sub_two, word_sub_sub] at hF
  rw [wordStored_other hF (hx 4 (by omega) (by omega)) (by rw [word_sub_succ]; exact hx 3 (by omega) (by omega))]
  exact wordStored_other (pushPc_stored_at s) (hx 2 (by omega) (by omega))
    (by rw [word_sub_two, word_sub_succ]; exact hx 1 (by omega) (by omega))

theorem handlerPushed_ram {s : State} (ram : s.ramAt (s.sp - BitVec.ofNat 16 4) 4) :
    (handlerPushed s).ramWord (s.sp - BitVec.ofNat 16 2) = s.pc ∧
    (handlerPushed s).ramWord (s.sp - BitVec.ofNat 16 4) = flagsImage s.f ∧
    (handlerPushed s).deviceWrites = s.deviceWrites := by
  have hP := pushPc_stored_at s
  have hF := pushFlags_stored_at (pushPc s)
  rw [pushPc_sp, pushPc_f, word_sub_two, word_sub_two, word_sub_sub] at hF
  rw [word_sub_two] at hP
  have r2 : s.ramAt (s.sp - BitVec.ofNat 16 2) 2 := by
    have := ramAt_part ram 2 2 (by omega)
    rwa [word_sub_add s.sp 2 2] at this
  have r4 : (pushPc s).ramAt (s.sp - BitVec.ofNat 16 4) 2 := fun k hk => by
    rw [pushPc_isIo]
    exact ramAt_prefix ram 2 (by omega) k hk
  refine ⟨?_, wordStored_ramWord hF r4, by rw [wordStored_ram_devices hF r4, wordStored_ram_devices hP r2]⟩
  have keep (i : Nat) (hi : i < 2) :
      (handlerPushed s).mem.read (s.sp - BitVec.ofNat 16 (i + 1)) = (pushPc s).mem.read (s.sp - BitVec.ofNat 16 (i + 1)) :=
    wordStored_other hF (word_sub_ofNat_ne _ (by omega) (by omega))
      (by rw [word_sub_succ]; exact word_sub_ofNat_ne _ (by omega) (by omega))
  have := wordStored_ramWord hP r2
  simp only [State.ramWord, word_sub_succ] at this ⊢
  rw [keep 1 (by omega), keep 0 (by omega)]
  exact this

/-! ### Entering and returning -/

theorem enterHandler_wf {s : State} (h : s.mem.wf) (v : Vec) : (enterHandler v s).mem.wf := by
  unfold enterHandler
  rw [jumpToVector_mem]
  exact push16_wf (push16_wf h _) _

@[simp] theorem enterHandler_irq (v : Vec) (s : State) : (enterHandler v s).irq = s.irq := by simp [enterHandler]
@[simp] theorem enterHandler_keyboard (v : Vec) (s : State) : (enterHandler v s).keyboard = s.keyboard := by simp [enterHandler]
@[simp] theorem enterHandler_agenda (v : Vec) (s : State) : (enterHandler v s).agenda = s.agenda := by simp [enterHandler]
@[simp] theorem enterHandler_cfg (v : Vec) (s : State) : (enterHandler v s).cfg = s.cfg := by simp [enterHandler]
@[simp] theorem enterHandler_f (v : Vec) (s : State) : (enterHandler v s).f = clearI s.f := by simp [enterHandler]
theorem enterHandler_mem (v : Vec) (s : State) : (enterHandler v s).mem = (handlerPushed s).mem := by simp [enterHandler]
theorem enterHandler_deviceWrites (v : Vec) (s : State) : (enterHandler v s).deviceWrites = (handlerPushed s).deviceWrites := by
  simp [enterHandler]
theorem enterHandler_sp (v : Vec) (s : State) : (enterHandler v s).sp = s.sp - BitVec.ofNat 16 4 := by
  unfold enterHandler
  rw [jumpToVector_sp]
  exact handlerPushed_sp s
theorem enterHandler_stored (v : Vec) (s : State) (q : Reg) (h : q ≠ .sp) : (enterHandler v s).stored q = s.stored q := by
  unfold enterHandler
  rw [jumpToVector_stored, State.setF_stored, pushFlags_stored, if_neg h, pushPc_stored, if_neg h]

/-- Everything entering a handler does. -/
theorem enterHandler_entered (v : Vec) (s : State) : handlerEntered s (enterHandler v s) v := by
  refine ⟨enterHandler_sp v s, fun q hq => enterHandler_stored v s q (by simpa using hq), fun x => ?_, fun x hx => ?_,
    fun ram => ?_, fun h => ?_, fun h ram => ?_, by simp, by simp, by simp⟩
  · rw [enterHandler_f, flagOf_clearI]
  · rw [enterHandler_mem]; exact handlerPushed_other hx
  · have := handlerPushed_ram ram
    rw [enterHandler_deviceWrites]
    simp only [State.ramWord, enterHandler_mem]
    exact this
  · exact jumpToVector_executeSlot v (by simpa using h)
  · simp only [State.ramWord, enterHandler_mem]
    exact jumpToVector_addressInSlot v (by simpa using h) fun k hk => by simpa [State.isIo, vectorEntry] using ram k hk

@[simp] theorem takeInterrupt_cfg (v : Vec) (s : State) : (takeInterrupt v s).cfg = s.cfg := by
  unfold takeInterrupt; split <;> simp

/-- A return in RAM: F and PC are the two entries, SP is 4 higher, no other register changes. -/
theorem returnFromHandler_ram {s : State} (ram : s.ramAt s.sp 4) :
    (returnFromHandler s).f = flagsOfImage (s.ramWord s.sp) ∧ (returnFromHandler s).pc = s.ramWord (s.sp + BitVec.ofNat 16 2) ∧
    (returnFromHandler s).sp = s.sp + BitVec.ofNat 16 4 ∧ ∀ q : Reg, q ≠ .sp → (returnFromHandler s).stored q = s.stored q := by
  have r0 : s.ramAt s.sp 2 := ramAt_prefix ram 2 (by omega)
  have r1 : (popFlags s).ramAt (popFlags s).sp 2 := fun k hk => by
    rw [popFlags_isIo, popFlags_sp, word_add_two]
    exact ramAt_part ram 2 2 (by omega) k hk
  refine ⟨?_, ?_, ?_, fun q hq => ?_⟩
  · rw [returnFromHandler, popPc_f, popFlags_ram r0, State.setF_f]
  · rw [returnFromHandler, popPc_ram r1, popFlags_sp]
    simp [State.ramWord]
  · rw [returnFromHandler, popPc_sp, popFlags_sp, word_add_two, word_add_two, word_add_add]
  · rw [returnFromHandler, popPc_stored, if_neg hq, popFlags_stored, if_neg hq]

end Sys2Proof.Machine
end

