-- ==== Sys2Proof/Laws/Devices.lean ====
section
/-! SUPPORT. The device agents and the choice of the interrupt to take (spec/60_exceptions.md R144 to R147). -/

namespace Sys2Proof

@[simp] theorem Agenda.next_cons (es : List DeviceEvent) (rest : List (List DeviceEvent)) (r : Recurrence) :
    (⟨es :: rest, r⟩ : Agenda).next = (es, ⟨rest, r⟩) := rfl
@[simp] theorem Agenda.next_cycle (es : List DeviceEvent) (rest : List (List DeviceEvent)) :
    (⟨[], .cycle (es :: rest)⟩ : Agenda).next = (es, ⟨[], .cycle (rest ++ [es])⟩) := rfl
@[simp] theorem Agenda.next_free (n : Nat) :
    (⟨[], .free n⟩ : Agenda).next = (Config.freeMoves n, ⟨[], .free (n + 1)⟩) := rfl
@[simp] theorem Agenda.next_silent : Agenda.silent.next = ([], Agenda.silent) := rfl

end Sys2Proof

namespace Sys2Proof.Machine

/-- A device event changes nothing but TT, the pending bits and the keyboard's buffer. -/
theorem applyEvent_frame (e : DeviceEvent) (s : State) :
    applyEvent e s =
      { s with tt := (applyEvent e s).tt, irq := (applyEvent e s).irq, keyboard := (applyEvent e s).keyboard } := by
  cases e <;> simp only [applyEvent]
  · split <;> rfl
  · split <;> rfl
  · split <;> rfl

theorem applyEvents_frame (es : List DeviceEvent) (s : State) :
    applyEvents es s =
      { s with tt := (applyEvents es s).tt, irq := (applyEvents es s).irq, keyboard := (applyEvents es s).keyboard } := by
  induction es generalizing s with
  | nil => rfl
  | cons e es ih =>
    rw [applyEvents, ih, applyEvent_frame]

/-- The devices' moves at a boundary change nothing but TT, the pending bits, the keyboard's buffer and the agenda. -/
theorem devicesMove_frame (s : State) :
    devicesMove s =
      { s with
        tt := (devicesMove s).tt, irq := (devicesMove s).irq, keyboard := (devicesMove s).keyboard,
        agenda := (devicesMove s).agenda } := by
  rw [devicesMove, applyEvents_frame]

@[simp] theorem devicesMove_pc (s : State) : (devicesMove s).pc = s.pc := by rw [devicesMove_frame]
@[simp] theorem devicesMove_f (s : State) : (devicesMove s).f = s.f := by rw [devicesMove_frame]
@[simp] theorem devicesMove_mem (s : State) : (devicesMove s).mem = s.mem := by rw [devicesMove_frame]
@[simp] theorem devicesMove_deviceWrites (s : State) : (devicesMove s).deviceWrites = s.deviceWrites := by rw [devicesMove_frame]
@[simp] theorem devicesMove_draws (s : State) : (devicesMove s).draws = s.draws := by rw [devicesMove_frame]
@[simp] theorem devicesMove_cfg (s : State) : (devicesMove s).cfg = s.cfg := by rw [devicesMove_frame]
@[simp] theorem devicesMove_agenda (s : State) : (devicesMove s).agenda = s.agenda.next.2 := by
  rw [devicesMove, applyEvents_frame]
theorem devicesMove_stored (s : State) {q : Reg} (h : q ≠ .tt) : (devicesMove s).stored q = s.stored q := by
  rw [devicesMove_frame]
  cases q with
  | tt => exact absurd rfl h
  | _ => rfl

/-- The part of the invariant that device events move in. -/
abbrev State.DevicesOk (s : State) : Prop :=
  s.keyboard.length ≤ keyboardDepth ∧ ∀ v : Vec, s.irq.get v = true → v ∈ s.cfg.irqSources

theorem applyEvent_ok {s : State} (h : s.DevicesOk) (e : DeviceEvent) : (applyEvent e s).DevicesOk := by
  obtain ⟨hk, hi⟩ := h
  cases e with
  | request v =>
    simp only [applyEvent]
    split
    · refine ⟨hk, fun u hu => ?_⟩
      rw [State.setIrq_irq_get] at hu
      split at hu
      · simp_all
      · exact hi u hu
    · exact ⟨hk, hi⟩
  | withdraw v =>
    simp only [applyEvent]
    split
    · exact ⟨hk, hi⟩
    · refine ⟨hk, fun u hu => hi u ?_⟩
      rw [State.setIrq_irq_get] at hu
      split at hu
      · simp at hu
      · exact hu
  | timerCount value => exact ⟨hk, hi⟩
  | keyArrives key =>
    simp only [applyEvent]
    split
    · refine ⟨?_, hi⟩
      simp only [List.length_append, List.length_cons, List.length_nil]
      omega
    · exact ⟨hk, hi⟩
  | keyTaken =>
    refine ⟨?_, hi⟩
    simp only [applyEvent, List.length_tail]
    omega

theorem applyEvents_ok {s : State} (h : s.DevicesOk) (es : List DeviceEvent) : (applyEvents es s).DevicesOk := by
  induction es generalizing s with
  | nil => exact h
  | cons e es ih => exact ih (applyEvent_ok h e)

theorem devicesMove_ok {s : State} (h : s.DevicesOk) : (devicesMove s).DevicesOk := by
  exact applyEvents_ok (s := { s with agenda := s.agenda.next.2 }) h _

/-- Under `clear-on-entry` no event withdraws a request. -/
theorem applyEvent_keeps {s : State} (h : s.cfg.irqAck = .clearOnEntry) {v : Vec} (hv : s.irq.get v = true) (e : DeviceEvent) :
    (applyEvent e s).irq.get v = true := by
  cases e with
  | request u => simp only [applyEvent]; split <;> simp [hv]
  | withdraw u => simp [applyEvent, h, hv]
  | timerCount value => exact hv
  | keyArrives key => simp only [applyEvent]; split <;> exact hv
  | keyTaken => exact hv

theorem applyEvents_keeps {s : State} (h : s.cfg.irqAck = .clearOnEntry) {v : Vec} (hv : s.irq.get v = true)
    (es : List DeviceEvent) : (applyEvents es s).irq.get v = true := by
  induction es generalizing s with
  | nil => exact hv
  | cons e es ih => exact ih (by rw [applyEvent_frame]; exact h) (applyEvent_keeps h hv e)

/-- An event sets only bits of `IRQ_SOURCES`. -/
theorem applyEvent_requests {s : State} {v : Vec} (e : DeviceEvent) (hv : (applyEvent e s).irq.get v = true) :
    s.irq.get v = true ∨ v ∈ s.cfg.irqSources := by
  cases e with
  | request u =>
    simp only [applyEvent] at hv
    split at hv
    · rw [State.setIrq_irq_get] at hv
      split at hv
      · right; simp_all
      · exact .inl hv
    · exact .inl hv
  | withdraw u =>
    simp only [applyEvent] at hv
    split at hv
    · exact .inl hv
    · rw [State.setIrq_irq_get] at hv
      split at hv
      · simp at hv
      · exact .inl hv
  | timerCount value => exact .inl hv
  | keyArrives key =>
    simp only [applyEvent] at hv
    split at hv <;> exact .inl hv
  | keyTaken => exact .inl hv

theorem applyEvents_requests {s : State} {v : Vec} (es : List DeviceEvent) (hv : (applyEvents es s).irq.get v = true) :
    s.irq.get v = true ∨ v ∈ s.cfg.irqSources := by
  induction es generalizing s with
  | nil => exact .inl hv
  | cons e es ih =>
    rcases ih hv with h | h
    · exact applyEvent_requests e h
    · rw [applyEvent_frame] at h; exact .inr h

/-! ### The interrupt that is taken -/

/-- The first element of a rising list that a test accepts is its least accepted element. -/
theorem find?_rising {n : Nat} (l : List (Fin n)) (hl : l.Pairwise (· < ·)) (f : Fin n → Bool) (v : Fin n) :
    l.find? f = some v ↔ v ∈ l ∧ f v = true ∧ ∀ u ∈ l, u < v → f u = false := by
  induction l with
  | nil => simp
  | cons a l ih =>
    obtain ⟨ha, hl⟩ := List.pairwise_cons.mp hl
    rw [List.find?_cons]
    cases hf : f a
    · simp only [ih hl, List.mem_cons]
      constructor
      · rintro ⟨h1, h2, h3⟩
        refine ⟨.inr h1, h2, ?_⟩
        rintro u (rfl | hu) huv
        · exact hf
        · exact h3 u hu huv
      · rintro ⟨h1 | h1, h2, h3⟩
        · subst h1; simp [hf] at h2
        · exact ⟨h1, h2, fun u hu => h3 u (.inr hu)⟩
    · simp only [Option.some.injEq, List.mem_cons]
      constructor
      · rintro rfl
        refine ⟨.inl rfl, hf, ?_⟩
        rintro u (rfl | hu) huv
        · exact absurd huv (lt_irrefl _)
        · exact absurd huv (not_lt.mpr (ha u hu).le)
      · rintro ⟨h1 | h1, h2, h3⟩
        · exact h1.symm
        · have := h3 a (.inl rfl) (ha v h1)
          simp [hf] at this

theorem pendingVector_some (s : State) (v : Vec) :
    pendingVector s = some v ↔ s.irq.get v = true ∧ ∀ u : Vec, u < v → s.irq.get u = false := by
  unfold pendingVector
  rw [find?_rising _ (by decide)]
  have hall : ∀ u : Vec, u ∈ [(0 : Vec), 1, 2, 3, 4, 5, 6, 7] := by decide
  simp only [hall, true_and, true_implies]

theorem pendingVector_none (s : State) : pendingVector s = none ↔ ∀ v : Vec, s.irq.get v = false := by
  unfold pendingVector
  have hall : ∀ u : Vec, u ∈ [(0 : Vec), 1, 2, 3, 4, 5, 6, 7] := by decide
  simp only [List.find?_eq_none, hall, true_implies, Bool.not_eq_true]

end Sys2Proof.Machine
end

