-- ==== Sys2Proof/Laws/Step.lean ====
section
/-! SUPPORT. Fetching and the meanings: what a fetch gives, and what every meaning leaves alone outside the CPU. -/

namespace Sys2Proof.Machine

/-! ### Fetching -/

theorem fetch_of_decode {s : State} {i : Instr} {rest : List Byte} (h : decode s.cfg (readBytes 8 s.pc s).1 = .ok (i, rest)) :
    fetch s =
      some (i, (readBytes (8 - rest.length) s.pc s).2.setPc (s.pc + BitVec.ofNat 16 (8 - rest.length))) := by
  simp only [fetch, maxLength, h]

theorem fetch_of_error {s : State} {e : DecodeError} (h : decode s.cfg (readBytes 8 s.pc s).1 = .error e) : fetch s = none := by
  simp only [fetch, maxLength, h]

theorem decode_of_fetch {s s1 : State} {i : Instr} (h : fetch s = some (i, s1)) :
    ∃ rest, decode s.cfg (readBytes 8 s.pc s).1 = .ok (i, rest) ∧
      s1 = (readBytes (8 - rest.length) s.pc s).2.setPc (s.pc + BitVec.ofNat 16 (8 - rest.length)) := by
  simp only [fetch, maxLength] at h
  split at h
  · simp at h
  · rename_i i' rest hd
    obtain ⟨rfl, rfl⟩ := Prod.mk.inj (Option.some.inj h)
    exact ⟨rest, hd, rfl⟩

/-- A fetch changes nothing but PC and the count of draws. -/
theorem fetch_frame {s s1 : State} {i : Instr} (h : fetch s = some (i, s1)) : s1 = { s with pc := s1.pc, draws := s1.draws } := by
  obtain ⟨rest, -, rfl⟩ := decode_of_fetch h
  rw [readBytes_state]
  rfl

/-! ### What every meaning leaves alone -/

theorem writeSized_frame (w : Width) (a v : Word) (s : State) :
    outsideSame s (writeSized w a v s) ∧ (writeSized w a v s).f = s.f ∧ (writeSized w a v s).pc = s.pc ∧
    ∀ q : Reg, (writeSized w a v s).stored q = s.stored q := by
  cases w <;> simp [writeSized, outsideSame]

theorem writeSized_wf {s : State} (h : s.mem.wf) (w : Width) (a v : Word) : (writeSized w a v s).mem.wf := by
  cases w
  · exact writeByte_wf h _ _
  · exact writeWord_wf h _ _

/-- An admitted pair has a width (R75, R91), and only such a pair. -/
theorem movWidth_isSome (dst src : Operand) : (movWidth dst src).isSome = movAdmitted dst src := by
  cases dst <;> cases src <;> rfl

theorem execMov_admitted {dst src : Operand} (h : movAdmitted dst src = true) (s : State) :
    ∃ w, movWidth dst src = some w ∧ execMov dst src s = .next (writeOperand w dst (readOperand w src s).1 (readOperand w src s).2) := by
  obtain ⟨w, hw⟩ := Option.isSome_iff_exists.mp (by rw [movWidth_isSome]; exact h)
  exact ⟨w, hw, by simp only [execMov, hw]⟩

/-- Reading an operand makes draws and changes nothing else. -/
theorem readOperand_frame (w : Width) (src : Operand) (s : State) :
    ∃ n, (readOperand w src s).2 = s.afterDraws n := by
  cases src with
  | reg r => exact ⟨regDraws r, by simp [readOperand, readReg_eq]⟩
  | imm8 v => exact ⟨0, rfl⟩
  | imm16 v => exact ⟨0, rfl⟩
  | mem m =>
    cases w
    · exact ⟨s.ioCount (effectiveAddress m s), by simp [readOperand, readSized, readByte_eq]⟩
    · exact ⟨s.wordDraws (effectiveAddress m s), by simp [readOperand, readSized, readWord_eq]⟩

/-- MOV's next state: the source is read, then the destination is written. -/
theorem execMov_next {dst src : Operand} {s t : State} (h : execMov dst src s = .next t) :
    ∃ w v n, movWidth dst src = some w ∧ v = (readOperand w src s).1 ∧ t = writeOperand w dst v (s.afterDraws n) := by
  unfold execMov at h
  split at h
  · simp at h
  · rename_i w hw
    obtain ⟨n, hn⟩ := readOperand_frame w src s
    refine ⟨w, (readOperand w src s).1, n, hw, rfl, ?_⟩
    rw [← hn]
    exact (Host.Outcome.next.inj h).symm

theorem writeOperand_outside (w : Width) (dst : Operand) (v : Word) (s : State) : outsideSame s (writeOperand w dst v s) := by
  cases dst with
  | reg d => simp [writeOperand, outsideSame]
  | mem m => exact (writeSized_frame w _ v s).1
  | imm8 v => exact ⟨rfl, rfl, rfl, rfl⟩
  | imm16 v => exact ⟨rfl, rfl, rfl, rfl⟩

theorem writeOperand_wf {s : State} (h : s.mem.wf) (w : Width) (dst : Operand) (v : Word) : (writeOperand w dst v s).mem.wf := by
  cases dst with
  | reg d => simpa [writeOperand] using h
  | mem m => exact writeSized_wf h w _ v
  | imm8 v => exact h
  | imm16 v => exact h

/-- No instruction touches the pending bits, the keyboard, the devices' agenda or the parameters. -/
theorem exec_outsideSame {i : Instr} {s t : State} (h : exec i s = .next t) : outsideSame s t := by
  cases i with
  | mov dst src =>
    obtain ⟨w, v, n, -, -, rfl⟩ := execMov_next h
    exact writeOperand_outside w dst v (s.afterDraws n)
  | push r => obtain rfl := Host.Outcome.next.inj h; simp [outsideSame]
  | pop r => obtain rfl := Host.Outcome.next.inj h; simp [outsideSame]
  | pusha =>
    obtain rfl := Host.Outcome.next.inj h
    obtain ⟨-, -, -, -, ⟨a, b, c, d⟩, -⟩ := pushRegs_fields pushaOrder s (by decide)
    simp [outsideSame, a, b, c, d]
  | popa =>
    obtain rfl := Host.Outcome.next.inj h
    obtain ⟨-, -, -, -, a, b, c, d⟩ := popRegs_frame pushaOrder.reverse (popFlags s)
    simp [outsideSame, a, b, c, d]
  | pushf => obtain rfl := Host.Outcome.next.inj h; simp [outsideSame]
  | popf => obtain rfl := Host.Outcome.next.inj h; simp [outsideSame]
  | call a => obtain rfl := Host.Outcome.next.inj h; simp [outsideSame]
  | ret => obtain rfl := Host.Outcome.next.inj h; simp [outsideSame]
  | int n =>
    simp only [exec, execInt] at h
    split at h
    · obtain rfl := Host.Outcome.next.inj h; simp [outsideSame]
    · simp at h
  | iret => obtain rfl := Host.Outcome.next.inj h; simp [outsideSame, returnFromHandler]

/-- Every instruction keeps memory in its canonical form. -/
theorem exec_wf {i : Instr} {s t : State} (h : exec i s = .next t) (hw : s.mem.wf) : t.mem.wf := by
  cases i with
  | mov dst src =>
    obtain ⟨w, v, n, -, -, rfl⟩ := execMov_next h
    exact writeOperand_wf (s := s.afterDraws n) hw w dst v
  | push r => obtain rfl := Host.Outcome.next.inj h; exact pushReg_wf hw r
  | pop r => obtain rfl := Host.Outcome.next.inj h; simpa using hw
  | pusha => obtain rfl := Host.Outcome.next.inj h; exact push16_wf (pushRegs_wf hw pushaOrder) _
  | popa =>
    obtain rfl := Host.Outcome.next.inj h
    obtain ⟨-, -, -, ⟨hm, -⟩, -⟩ := popRegs_frame pushaOrder.reverse (popFlags s)
    rw [hm]
    simpa using hw
  | pushf => obtain rfl := Host.Outcome.next.inj h; exact push16_wf hw _
  | popf => obtain rfl := Host.Outcome.next.inj h; simpa using hw
  | call a => obtain rfl := Host.Outcome.next.inj h; exact push16_wf (s := s) hw _
  | ret => obtain rfl := Host.Outcome.next.inj h; simpa using hw
  | int n =>
    simp only [exec, execInt] at h
    split at h
    · obtain rfl := Host.Outcome.next.inj h; exact enterHandler_wf hw _
    · simp at h
  | iret => obtain rfl := Host.Outcome.next.inj h; simpa [returnFromHandler] using hw

theorem takeInterrupt_wf {s : State} (h : s.mem.wf) (v : Vec) : (takeInterrupt v s).mem.wf := by
  unfold takeInterrupt
  split
  · exact enterHandler_wf (s := s.setIrq v false) h v
  · exact enterHandler_wf h v

/-- How a step comes to its next state: the accepted interrupt is taken, or the fetched instruction runs. -/
theorem step_next {s t : State} (h : step s = .next t) :
    (∃ v, acceptedVector (devicesMove s) = some v ∧ t = takeInterrupt v (devicesMove s)) ∨
    (acceptedVector (devicesMove s) = none ∧ ∃ i s1, fetch (devicesMove s) = some (i, s1) ∧ exec i s1 = .next t) := by
  unfold step at h
  simp only at h
  split at h
  · rename_i v hv
    exact .inl ⟨v, hv, (Host.Outcome.next.inj h).symm⟩
  · rename_i hv
    refine .inr ⟨hv, ?_⟩
    unfold runInstruction at h
    split at h
    · simp at h
    · rename_i i s1 hf
      exact ⟨i, s1, hf, h⟩

end Sys2Proof.Machine
end

