-- ==== Sys2Proof/Tests/Slice0.lean ====
section
/-! SUPPORT. Tests: ill-formed terms the check refuses, words written out from the spec's encodings and what they decode to, single
steps with the results spec/95_test_vectors.md gives (V<n>), and a witness for the hypotheses of every statement that has any. -/

namespace Sys2Proof.Tests

open Sys2Proof.Machine

/-! ### A machine with opcode bytes and a few device addresses -/

/-- A legal choice of the nine open opcode bytes (R74), the defaults of R6 otherwise. -/
def config : Config where
  opcodes :=
    { pop := 0x10, pusha := 0x11, popa := 0x12, pushf := 0x13, popf := 0x14, call := 0x15, ret := 0x16, int := 0x17, iret := 0x18 }
  zeroOperandModeByte := .present
  idxOffsetExt := .zext
  vectorFetch := .addressInSlot
  irqSources := [0, 2]
  irqAck := .clearOnEntry
  resetPc := 0x0200
  haltPc := none
  ioRegion := []
  resetValues := zeroResetValues

/-- The same with `ZERO_OPERAND_MODE_BYTE = absent`, the other settings of R6, and devices at 0x4000 to 0x4003. -/
def configOther : Config :=
  { config with
    zeroOperandModeByte := .absent, idxOffsetExt := .sext, vectorFetch := .executeSlot, irqAck := .deviceHeld,
    irqSources := [0, 1, 2, 3, 4, 5, 6, 7], ioRegion := [⟨0x4000, 0x4003⟩],
    resetValues := { zeroResetValues with vl := 0x5A, irq := (Vector.replicate 8 false).set 7 true, keyboard := [0x41] } }

/-- The machine at a launch. -/
def start : State := State.launch config [] Agenda.silent

/-- The machine at a launch, with the other settings. -/
def startOther : State := State.launch configOther [] Agenda.silent

/-- With bytes in memory. -/
def put (a : Word) (bs : List Byte) (s : State) : State := { s with mem := s.mem.writeBytes a bs }

/-- The next state, if there is one. -/
def after (o : Host.Outcome State Fault Refusal) : Option State :=
  match o with
  | .next t => some t
  | .fault _ => none
  | .refused _ => none

/-- The fault, if it stopped with one. -/
def faultOf (o : Host.Outcome State Fault Refusal) : Option Fault :=
  match o with
  | .next _ => none
  | .fault e => some e
  | .refused _ => none

/-- A word in memory after a step. -/
def wordAt (a : Word) (t : State) : Word := t.ramWord a

/-! ### The check refuses ill-formed terms (R75) -/

theorem test_illformed_imm8_destination : (Instr.mov (.imm8 0x12) (.reg (.r 0))).WellFormed = false := by decide
theorem test_illformed_imm16_destination : (Instr.mov (.imm16 0x1234) (.imm8 1)).WellFormed = false := by decide
theorem test_illformed_memory_to_memory :
    (Instr.mov (.mem (.indirect (.p 0))) (.mem (.direct 0x3000))).WellFormed = false := by decide
theorem test_wellformed_register_destination : (Instr.mov (.reg .ts) (.mem (.indexed (.r 9) 0xFF))).WellFormed = true := by decide

/-! ### Words written out from the encoding (R60 to R74; V1 to V13) -/

theorem test_decode_mov_imm16 :
    decode config [0b00000110, 0b00001000, 0xA9, 0x12, 0x34] = .ok (.mov (.reg (.r 0)) (.imm16 0x1234), []) := by decide
theorem test_decode_mov_indexed_imm8 :
    decode config [0b00000110, 0b01000111, 0xB3, 0x04, 0x7F] = .ok (.mov (.mem (.indexed (.p 0) 0x04)) (.imm8 0x7F), []) := by
  decide
theorem test_decode_push : decode config [0b00101110, 0b00000000, 0xB3] = .ok (.push (.p 0), []) := by decide
theorem test_decode_push_sp : decode config [0x2E, 0x00, 0xBB] = .ok (.push .sp, []) := by decide
theorem test_decode_pop : decode config [0x10, 0x00, 0x61, 0xFF] = .ok (.pop .tt, [0xFF]) := by decide
theorem test_decode_pusha : decode config [0x11, 0x00] = .ok (.pusha, []) := by decide
theorem test_decode_popa : decode config [0x12, 0x00] = .ok (.popa, []) := by decide
theorem test_decode_pushf : decode config [0x13, 0x00] = .ok (.pushf, []) := by decide
theorem test_decode_popf : decode config [0x14, 0x00] = .ok (.popf, []) := by decide
theorem test_decode_call : decode config [0x15, 0b00000010, 0x03, 0x00] = .ok (.call 0x0300, []) := by decide
theorem test_decode_ret : decode config [0x16, 0x00] = .ok (.ret, []) := by decide
theorem test_decode_int : decode config [0x17, 0b00000001, 0x03] = .ok (.int 3, []) := by decide
theorem test_decode_iret : decode config [0x18, 0x00] = .ok (.iret, []) := by decide
theorem test_decode_zero_operands_without_mode_byte : decode configOther [0x18, 0x2E] = .ok (.iret, [0x2E]) := by decide

/-! ### Bytes that are no instruction (R76; V14 to V19e) -/

theorem test_illegal_direct_and_indexed : decode config [0x06, 0xCC, 0xAA, 0xB3, 0x04] = .error .directAndIndexed := by decide
theorem test_illegal_third_field : decode config [0x06, 0x10, 0xA9, 0xAA] = .error .unusedModeField := by decide
theorem test_illegal_register_code : decode config [0x2E, 0x00, 0x00] = .error (.unknownRegister 0x00) := by decide
theorem test_illegal_push_immediate : decode config [0x2E, 0x01, 0x05] = .error .formNotAdmitted := by decide
theorem test_illegal_dir_without_memory : decode config [0x06, 0x80, 0xA9, 0xAA] = .error .unusedModeField := by decide
theorem test_illegal_base_vx : decode config [0x06, 0x0C, 0xAB, 0xBD] = .error (.unknownBase 0xBD) := by decide
theorem test_illegal_immediate_destination : decode config [0x06, 0x01, 0x12, 0xA9] = .error .formNotAdmitted := by decide
theorem test_illegal_memory_to_memory : decode config [0x06, 0x0F, 0xB3, 0xB4] = .error .formNotAdmitted := by decide
theorem test_illegal_push_second_field : decode config [0x2E, 0x04, 0xB3] = .error .unusedModeField := by decide
theorem test_illegal_ret_mode : decode config [0x16, 0x01] = .error .unusedModeField := by decide
theorem test_illegal_opcode : decode config [0x19, 0x00] = .error (.unknownOpcode 0x19) := by decide

/-! ### The host's view of a row (log 13) -/

theorem test_table_word_mov : decodeTableWord 48 0x3400A9120608 = some (.mov (.reg (.r 0)) (.imm16 0x1234)) := by decide
theorem test_table_word_push : decodeTableWord 32 0xB3002E00 = some (.push (.p 0)) := by decide
theorem test_fetch_word_runs :
    (after (step (State.reset.withFetchWord 48 0x3400A9120608))).map (fun t => (t.r.get 0, t.pc)) = some (0x34, 5) := by decide

/-! ### MOV (V20 to V34c) -/

theorem test_mov_imm16_into_byte :
    (after (step (put 0x0200 [0x06, 0x08, 0xA9, 0x12, 0x34] start))).map (fun t => (t.r.get 0, t.pc, t.f)) =
      some (0x34, 0x0205, 0) := by decide
theorem test_mov_16_bit_load_wraps :
    (after (step (put 0xFFFF [0x12, 0x34] (put 0x0200 [0x06, 0x8C, 0xB4, 0xFF, 0xFF] start)))).map (fun t => t.p.get 1) =
      some 0x1234 := by decide
theorem test_mov_byte_base_indexed :
    (after (step (put 0x0108 [0x04, 0x00] (put 0x0200 [0x06, 0x4C, 0xB5, 0xAA, 0x10] (start.setR 1 0xF8))))).map
      (fun t => t.p.get 2) = some 0x0400 := by decide
theorem test_mov_byte_store_leaves_next_byte :
    (after (step (put 0x3001 [0x55] (put 0x0200 [0x06, 0x83, 0x30, 0x00, 0xA9] (start.setR 0 0x77))))).map (wordAt 0x3000) =
      some 0x7755 := by decide
theorem test_offset_sign_extended :
    effectiveAddress (.indexed (.p 0) 0xFF) (startOther.setP 0 0xFFF0) = 0xFFEF := by decide

/-! ### The stack (V36 to V47) -/

theorem test_push_byte_register :
    (after (step (put 0x0200 [0x2E, 0x00, 0xA9] ((start.setR 0 0xAB).setP 8 0xFFFD)))).map (fun t => (t.sp, wordAt 0xFFFB t)) =
      some (0xFFFB, 0x00AB) := by decide
theorem test_push_sp :
    (after (step (put 0x0200 [0x2E, 0x00, 0xBB] start))).map (fun t => (t.sp, wordAt 0xFFFD t)) = some (0xFFFD, 0xFFFD) := by
  decide
theorem test_pop_byte_register :
    (after (step (put 0xFFFD [0x12, 0x34] (put 0x0200 [0x10, 0x00, 0xA9] (start.setP 8 0xFFFD))))).map
      (fun t => (t.r.get 0, t.sp)) = some (0x34, 0xFFFF) := by decide
theorem test_pop_sp :
    (after (step (put 0xFFFD [0x80, 0x00] (put 0x0200 [0x10, 0x00, 0xBB] (start.setP 8 0xFFFD))))).map (fun t => t.sp) =
      some 0x8002 := by decide
theorem test_pushf :
    (after (step (put 0x0200 [0x13, 0x00] (start.setF 0xABC)))).map (fun t => (t.sp, wordAt 0xFFFD t)) = some (0xFFFD, 0x0ABC) := by
  decide
theorem test_popf :
    (after (step (put 0xFFFD [0xF1, 0x23] (put 0x0200 [0x14, 0x00] (start.setP 8 0xFFFD))))).map (fun t => (t.f, t.sp, t.pc)) =
      some (0x123, 0xFFFF, 0x0202) := by decide

/-- The registers of V45. -/
def filled : State :=
  { start with
    r := ⟨#[0x10, 0x11, 0x12, 0x13, 0x14, 0x15, 0x16, 0x17, 0x18, 0x19], rfl⟩
    p := ⟨#[0x2000, 0x2001, 0x2002, 0x2003, 0x2004, 0x2005, 0x2006, 0x2007, 0xFFFF, 0x2009], rfl⟩
    f := 0x0A5 }

/-- The frame of V45, from 0xFFD5 up. -/
def frame : List Byte :=
  [0x00, 0xA5, 0x20, 0x09, 0xFF, 0xD9, 0x20, 0x07, 0x20, 0x06, 0x20, 0x05, 0x20, 0x04, 0x20, 0x03, 0x20, 0x02, 0x20, 0x01,
   0x20, 0x00] ++
  [0x00, 0x19, 0x00, 0x18, 0x00, 0x17, 0x00, 0x16, 0x00, 0x15, 0x00, 0x14, 0x00, 0x13, 0x00, 0x12, 0x00, 0x11, 0x00, 0x10]

set_option maxRecDepth 8000 in
theorem test_pusha_frame :
    (after (exec .pusha filled)).map
      (fun t => (t.sp, [0xFFFD, 0xFFEB, 0xFFE9, 0xFFDB, 0xFFD9, 0xFFD7, 0xFFD5].map fun a => wordAt a t)) =
      some (0xFFD5, [0x0010, 0x0019, 0x2000, 0x2007, 0xFFD9, 0x2009, 0x00A5]) := by decide
theorem test_popa_restores :
    (after (exec .popa (put 0xFFD5 frame (start.setP 8 0xFFD5)))).map (fun t => (t.r, t.p, t.f)) =
      some (filled.r, filled.p, filled.f) := by decide
theorem test_popa_altered_sp :
    (after (exec .popa (put 0xFFD9 [0x80, 0x00] (put 0xFFD5 frame (start.setP 8 0xFFD5))))).map (fun t => (t.f, t.fp, t.sp)) =
      some (0x0A5, 0x2009, 0x8026) := by decide

/-! ### CALL, RET, INT, IRET and hardware interrupts (V48 to V61) -/

theorem test_call :
    (after (step (put 0x0200 [0x15, 0x02, 0x03, 0x00] start))).map (fun t => (t.pc, t.sp, wordAt 0xFFFD t)) =
      some (0x0300, 0xFFFD, 0x0204) := by decide
theorem test_call_at_the_top :
    (after (step (put 0xFFFE [0x15, 0x02, 0x03, 0x00] ((start.setPc 0xFFFE).setP 8 0x8000)))).map
      (fun t => (t.pc, wordAt 0x7FFE t)) = some (0x0300, 0x0002) := by decide
theorem test_ret :
    (after (step (put 0xFFFD [0x02, 0x04] (put 0x0200 [0x16, 0x00] (start.setP 8 0xFFFD))))).map (fun t => (t.pc, t.sp)) =
      some (0x0204, 0xFFFF) := by decide
theorem test_int :
    (after (step (put 0x010C [0x04, 0x00] (put 0x0200 [0x17, 0x01, 0x03] (start.setF 0x020))))).map
      (fun t => (t.pc, t.sp, t.f, wordAt 0xFFFD t, wordAt 0xFFFB t)) = some (0x0400, 0xFFFB, 0x000, 0x0203, 0x0020) := by decide
theorem test_int_eight : faultOf (step (put 0x0200 [0x17, 0x01, 0x08] start)) = some (.illegalVector 0x0200 8) := by decide
theorem test_iret :
    (after (step (put 0xFFFB [0xF8, 0xC2, 0x02, 0x03] (put 0x0200 [0x18, 0x00] (start.setP 8 0xFFFB))))).map
      (fun t => (t.f, t.pc, t.sp)) = some (0x8C2, 0x0203, 0xFFFF) := by decide

/-- V57's situation: a timer request at a boundary, with F.I as given. -/
def atBoundary (f : FlagsWord) (s : State) : State :=
  put 0x0100 [0x05, 0x00] (put 0x0205 [0x06, 0x04, 0xAA, 0x01] ((((s.setPc 0x0205).setF f).setP 8 0xFFFD).setIrq 0 true))

theorem test_interrupt_entry :
    (after (step (atBoundary 0x0E0 start))).map
      (fun t => (t.irq.get 0, wordAt 0xFFFB t, wordAt 0xFFF9 t, t.sp, t.f, t.pc)) =
      some (false, 0x0205, 0x00E0, 0xFFF9, 0x0C0, 0x0500) := by decide
theorem test_interrupt_disabled :
    (after (step (atBoundary 0x0C0 start))).map (fun t => (t.irq.get 0, t.r.get 1, t.pc)) = some (true, 0x01, 0x0209) := by decide
theorem test_interrupt_executes_slot :
    (after (step (atBoundary 0x0E0 startOther))).map (fun t => (t.irq.get 0, t.pc)) = some (true, 0x0100) := by decide
theorem test_interrupt_priority :
    acceptedVector (((start.setF 0x020).setIrq 2 true).setIrq 0 true) = some 0 := by decide
theorem test_undecodable_stops : faultOf (step start) = some (.illegalInstruction 0x0200) := by decide
theorem test_device_requests_timer :
    (after (step { put 0x0200 [0x06, 0x04, 0xAA, 0x01] start with agenda := ⟨[[.request 0, .request 3, .keyArrives 0x41]], .free 5⟩ })).map
      (fun t => (t.irq.get 0, t.irq.get 3, t.keyboard, t.agenda)) = some (true, false, [0x41], ⟨[], .free 5⟩) := by decide

/-! ### Witnesses: concrete states and operands that meet the hypotheses of each statement -/

theorem witness_DecodeOfEncodeIsTheInstruction :
    config.OpcodesLegal ∧ configOther.OpcodesLegal ∧ (Instr.mov (.mem (.direct 0xFFFF)) (.imm16 0xFFFF)).WellFormed = true := by
  decide
theorem witness_DecodedBytesAreTheEncoding :
    decode config [0x06, 0x8B, 0x20, 0x00, 0x12, 0x34, 0x99] = .ok (.mov (.mem (.direct 0x2000)) (.imm16 0x1234), [0x99]) := by
  decide
theorem witness_ModeBytesAreTheAdmittedOnes : config.OpcodesLegal ∧ config.zeroOperandModeByte = .present := by decide
theorem witness_SpecExamplesDecode :
    config.OpcodesLegal ∧ config.zeroOperandModeByte = .present ∧ configOther.OpcodesLegal ∧
    configOther.zeroOperandModeByte = .absent := by decide
theorem witness_CodesOutsideTheTables_opcode :
    config.OpcodesLegal ∧ [0x00, 0x05, 0x07, 0x2D, 0x2F, 0xFF].all fun b => Mnemonic.all.all fun m => config.opcode m != b := by
  decide
theorem witness_CodesOutsideTheTables_register :
    [0x00, 0x5E, 0x65, 0xA8, 0xBF, 0xFF].all (fun c => Reg.ofCode c == none) = true ∧ 1 ≤ Mnemonic.push.operandCount ∧
    modeM1 0x00 = .reg ∧ modeM2 0x00 = .reg ∧ (Reg.ofCode 0xB2).isSome = true := by decide
theorem witness_CodesOutsideTheTables_base :
    [0x00, 0x5F, 0xA8, 0xBD, 0xBE, 0xFF].all (fun c => Base.ofCode c == none) = true ∧
    (modeM1 0x03 = .mem ∧ modeDir 0x03 = false) ∧ (modeM1 0x4C = .reg ∧ modeM2 0x4C = .mem ∧ modeDir 0x4C = false) := by decide
theorem witness_LengthOfAnInstruction :
    (config.zeroOperandModeByte = .present ∧ Instr.iret.WellFormed = true) ∧
    ((Instr.push (.r 0)).operands ≠ [] ∧ (Instr.push (.r 0)).WellFormed = true) ∧
    (configOther.zeroOperandModeByte = .absent ∧ Instr.iret.operands = []) := by decide

/-- MOV R1, [0x3001] at PC. -/
def atMov : State := put 0x0200 [0x06, 0x8C, 0xAA, 0x30, 0x01] start

theorem witness_StepRunsTheDecodedInstruction :
    acceptedVector (devicesMove atMov) = none ∧
    decode (devicesMove atMov).cfg (readBytes 8 (devicesMove atMov).pc (devicesMove atMov)).1 =
      .ok (.mov (.reg (.r 1)) (.mem (.direct 0x3001)), [0, 0, 0]) := by decide
theorem witness_StepRunsTheEncodedInstruction :
    acceptedVector (devicesMove atMov) = none ∧ (devicesMove atMov).cfg.OpcodesLegal ∧
    (Instr.mov (.reg (.r 1)) (.mem (.direct 0x3001))).WellFormed = true ∧
    (devicesMove atMov).ramAt 0x0200 5 ∧ (Instr.mov (.reg (.r 1)) (.mem (.direct 0x3001))).length config = 5 ∧
    (List.range 5).map (fun k => (devicesMove atMov).mem.read (0x0200 + BitVec.ofNat 16 k)) =
      encode config (.mov (.reg (.r 1)) (.mem (.direct 0x3001))) := by decide
theorem witness_FetchAdvancesPastTheInstruction :
    (fetch atMov).map (·.1) = some (.mov (.reg (.r 1)) (.mem (.direct 0x3001))) := by decide
theorem witness_UndecodableBytesStop :
    acceptedVector (devicesMove start) = none ∧
    decode (devicesMove start).cfg (readBytes 8 (devicesMove start).pc (devicesMove start)).1 = .error (.unknownOpcode 0x00) := by
  decide
theorem witness_AcceptedInterruptIsTaken :
    acceptedVector (devicesMove (atBoundary 0x0E0 start)) = some 0 ∧
    acceptedVector (devicesMove ((startOther.setF 0x020).setIrq 7 true)) = some 7 := by decide
theorem witness_NoInterruptWhileDisabled : flagOf (atBoundary 0xFDF start).f .i = false := by decide
theorem witness_InterruptEntryResult :
    start.cfg.irqAck = .clearOnEntry ∧ startOther.cfg.irqAck = .deviceHeld ∧ startOther.cfg.vectorFetch = .executeSlot ∧
    start.cfg.vectorFetch = .addressInSlot ∧ start.ramAt (start.sp - 4) 4 ∧ start.ramAt 0x0100 2 ∧ start.ramAt 0x011C 2 := by
  decide
theorem witness_DevicesMayMoveAtAnyBoundary : (0 : Vec) ∈ start.cfg.irqSources ∧ (7 : Vec) ∈ startOther.cfg.irqSources := by
  decide
theorem witness_DevicesMayMoveForEver :
    (after (step { atMov with agenda := ⟨[[.request 2]], .free 7⟩ })).map (·.agenda) = some ⟨[], .free 7⟩ ∧
    0 < [[DeviceEvent.keyTaken]].length ∧ 5 % [[DeviceEvent.keyTaken], []].length < [[DeviceEvent.keyTaken], []].length ∧
    (2 : Vec) ∈ (atBoundary 0x0E0 start).cfg.irqSources ∧
    (after (step { atBoundary 0x0E0 start with agenda := ⟨[], .cycle [[.request 2]]⟩ })).map (·.agenda) =
      some ⟨[], .cycle [[.request 2]]⟩ := by decide
theorem test_cycle_never_ends :
    (⟨[[]], .cycle [[.request 2], []]⟩ : Agenda).movesAt 0 = [] ∧
    (⟨[[]], .cycle [[.request 2], []]⟩ : Agenda).movesAt 1 = [.request 2] ∧
    (⟨[[]], .cycle [[.request 2], []]⟩ : Agenda).movesAt 2 = [] ∧
    (⟨[[]], .cycle [[.request 2], []]⟩ : Agenda).movesAt 9 = [.request 2] := by decide
theorem witness_DeviceMovesTouchOnlyDeviceState :
    start.cfg.irqAck = .clearOnEntry ∧ (start.setIrq 7 true).irq.get 7 = true ∧
    (devicesMove { start with agenda := ⟨[[.request 2]], .cycle []⟩ }).irq.get 2 = true := by decide
theorem witness_RequestStaysPendingUntilTaken :
    start.cfg.irqAck = .clearOnEntry ∧ (atBoundary 0x0C0 start).irq.get 0 = true ∧
    acceptedVector (devicesMove (atBoundary 0x0C0 start)) ≠ some 0 ∧ (after (step (atBoundary 0x0C0 start))).isSome = true := by
  decide
theorem witness_EffectiveAddressOfEachForm : start.cfg.idxOffsetExt = .zext ∧ startOther.cfg.idxOffsetExt = .sext := by decide
theorem witness_Mov_widths : Reg.tt.width = .word ∧ Reg.fp.width = .word ∧ (Reg.r 9).width = .byte ∧ Reg.vy.width = .byte := by decide
theorem witness_MovOfAFormNotAdmittedStops : (Instr.mov (.imm16 0xFFFF) (.mem (.direct 0))).WellFormed = false := by decide
theorem witness_PopResult : (Reg.p 8 = Reg.sp) ∧ (Reg.p 9 ≠ Reg.sp ∧ (Reg.p 9).width = .word) ∧ (Reg.ts ≠ Reg.sp ∧ Reg.ts.width = .byte) := by
  decide
theorem witness_PushaResult : start.ramAt (start.sp - 42) 42 ∧ (startOther.setP 8 0x0014).ramAt ((0x0014 : Word) - 42) 42 := by
  decide
theorem witness_PopaResult :
    (put 0xFFD5 frame (start.setP 8 0xFFD5)).ramAt 0xFFD5 6 ∧
    (put 0xFFD5 frame (start.setP 8 0xFFD5)).ramWord (0xFFD5 + 4) = 0xFFD9 ∧
    (put 0xFFD5 frame (start.setP 8 0xFFD5)).ramAt (0xFFD9 + 2) 36 := by decide
theorem witness_IntAboveSevenStops : 8 ≤ (8 : Byte).toNat ∧ 8 ≤ (255 : Byte).toNat := by decide
theorem witness_MemReadValue :
    startOther.isIo 0x4000 = true ∧ startOther.isIo 0x4003 = true ∧ startOther.isIo 0x3FFF = false ∧
    startOther.isIo 0x4004 = false := by decide
theorem witness_MemWriteEffect :
    startOther.isIo 0x3FFF = false ∧ startOther.isIo 0xFFFF = false ∧ startOther.isIo (0xFFFF + 1) = false := by decide
theorem witness_MixedWidthAccesses : startOther.ramAt 0xFFFF 2 ∧ startOther.ramAt 0x3FFE 2 := by decide
theorem witness_EqualReadsAreEqualMemories :
    Memory.wf [(0, 0x12), (0xFFFF, 0x34)] ∧
    ∀ a : Word, Memory.read [(0, 0x12), (0xFFFF, 0x34)] a = Memory.read [(0, 0x12), (0xFFFF, 0x34)] a := ⟨by decide, fun _ => rfl⟩
theorem witness_Push16StoresBelow : start.ramAt (start.sp - 2) 2 ∧ (start.setP 8 1).ramAt ((1 : Word) - 2) 2 := by decide
theorem witness_ByteViewsAreNotEncodable :
    (AsmOperand.highByte 0 ∈ [AsmOperand.highByte 0, .operand (.imm8 1)]) ∧
    AsmOperand.lowByte 9 ∈ [AsmOperand.operand (.reg (.r 0)), .lowByte 9] := by decide
theorem witness_StepKeepsInv : atMov.Inv ∧ (after (step atMov)).isSome = true := by decide
theorem witness_StepKeepsConfig : (after (step (atBoundary 0x0E0 start))).isSome = true := by decide
theorem witness_FlagsChangeOnlyWhereTheSpecSays :
    (after (exec (.int 7) start)).isSome = true ∧ (after (exec .pusha start)).isSome = true ∧
    Instr.int 7 ≠ .popf ∧ Instr.int 7 ≠ .popa ∧ Instr.int 7 ≠ .iret ∧ ∀ n : Byte, Instr.pusha ≠ .int n :=
  ⟨by decide, by decide, by decide, by decide, by decide, fun _ h => nomatch h⟩
theorem witness_RegistersChangeOnlyAsDestinations :
    (after (exec .popa start)).isSome = true ∧ Reg.vx ∉ destinations .popa ∧
    (after (exec (.mov (.reg (.r 0)) (.imm8 1)) start)).isSome = true ∧ Reg.sp ∉ destinations (.mov (.reg (.r 0)) (.imm8 1)) ∧
    usesStack (.mov (.reg (.r 0)) (.imm8 1)) = false := by decide
theorem witness_MemoryChangesOnlyAtTheStoredBytes :
    (after (exec (.push (.r 0)) start)).isSome = true ∧
    ¬ touches (storeRange (.push (.r 0)) start).1 (storeRange (.push (.r 0)) start).2 0xFFFF ∧
    ¬ touches (storeRange (.push (.r 0)) start).1 (storeRange (.push (.r 0)) start).2 0xFFFC := by decide
theorem witness_PushThenPopRestores : startOther.ramAt (startOther.sp - 2) 2 ∧ Reg.sp ≠ Reg.tt := by decide
theorem witness_PopaUndoesPusha :
    ∃ t t' : State, filled.ramAt (filled.sp - 42) 42 ∧ exec .pusha filled = .next t ∧ t'.mem = t.mem ∧ t'.sp = t.sp ∧
      t'.cfg = t.cfg ∧ t'.r.get 0 = 0xEE :=
  ⟨pushFlags (pushRegs pushaOrder filled), (pushFlags (pushRegs pushaOrder filled)).setR 0 0xEE,
    by decide, rfl, State.setR_mem _ _ _, congrArg (Vector.get · 8) (State.setR_p _ _ _), State.setR_cfg _ _ _, by simp⟩
theorem witness_InvAtEveryLaunch :
    Memory.wf [(0x0200, 0x06)] ∧ configOther.resetValues.keyboard.length ≤ 16 ∧ configOther.resetValues.irq.get 7 = true ∧
    ∀ v : Vec, configOther.resetValues.irq.get v = true → v ∈ configOther.irqSources := by decide
theorem test_launch_takes_reset_values : (startOther.vl, startOther.sp, startOther.p.get 7, startOther.keyboard) = (0x5A, 0xFFFF, 0, [0x41]) := by
  decide
theorem witness_RetUndoesCall : start.ramAt (start.sp - 2) 2 ∧ (start.setP 8 0).ramAt ((0 : Word) - 2) 2 := by decide
theorem witness_IretUndoesHandlerEntry : start.ramAt (start.sp - 4) 4 ∧ (start.setP 8 2).ramAt ((2 : Word) - 4) 4 := by decide

end Sys2Proof.Tests
end

section
/-! Memory writes in RAM (spec/20_memory.md R44): what every address reads after a store that no device takes. -/

namespace Sys2Proof.Machine

/-- A byte stored in RAM is read at its address; every other address reads as before. -/
theorem byteStored_ram_read {s t : State} {a : Word} {b : Byte} (h : byteStored s t a b) (ram : s.isIo a = false) (x : Word) :
    t.mem.read x = if x = a then b else s.mem.read x := by
  obtain ⟨hread, -⟩ := h
  simp [hread, ram]

/-- A word stored in RAM is read high byte first; every other address reads as before. The two addresses differ, also at 0xFFFF, so the
order in which they are asked for does not matter. -/
theorem wordStored_ram_read {s t : State} {a v : Word} (h : wordStored s t a v) (ram : s.isIo a = false)
    (ram' : s.isIo (a + 1) = false) (x : Word) :
    t.mem.read x = if x = a then (v >>> 8).setWidth 8 else if x = a + 1 then v.setWidth 8 else s.mem.read x := by
  obtain ⟨hread, -⟩ := h
  have hne : x = a + 1 → x ≠ a := by bv_omega
  simp only [hread, hiByte_eq, loByte_eq, ram, ram', and_true]
  exact ite_ite_comm _ _ _ _ hne

/-- Settles O37, from what `writeByte` and `writeWord` store, at addresses that are RAM. -/
theorem memWriteEffect : Obligations.MemWriteEffect := by
  intro a s
  exact ⟨fun b ram => byteStored_ram_read (writeByte_stored_at a b s) ram,
    fun v ram ram' => wordStored_ram_read (writeWord_stored_at a v s) ram ram'⟩

end Sys2Proof.Machine
end

section
/-! The mode byte as a number and the table of register codes (spec/30_encoding.md R62, R68). -/

namespace Sys2Proof

/-- Appending puts the first word above the `w` bits of the second, as a number in base `2 ^ w`. -/
theorem toNat_append_eq_mul_add {v w : Nat} (x : BitVec v) (y : BitVec w) : (x ++ y).toNat = 2 ^ w * x.toNat + y.toNat := by
  rw [BitVec.toNat_append, Nat.shiftLeft_eq, Nat.mul_comm, Nat.two_pow_add_eq_or_of_lt y.isLt]

/-- The places of the five fields: DIR is bit 7, X bit 6, then two bits each for m3, m2 and m1 (R62). -/
theorem modeByte_toNat (dir x : Bool) (m3 m2 m1 : AddrMode) :
    (modeByte dir x m3 m2 m1).toNat =
      128 * dir.toNat + 64 * x.toNat + 16 * m3.bits.toNat + 4 * m2.bits.toNat + m1.bits.toNat := by
  simp only [modeByte, toNat_append_eq_mul_add, BitVec.toNat_ofBool]
  omega

/-- Settles O4: every byte is the append of its fields, whose value is the sum of the fields at their places. -/
theorem modeByteLayout : Obligations.ModeByteLayout := by
  refine ⟨fun m => ⟨modeByte_fields m, ?_⟩, by decide⟩
  have places := modeByte_toNat (modeDir m) (modeX m) (modeM3 m) (modeM2 m) (modeM1 m)
  rwa [modeByte_fields] at places

/-- The codes of R0-R9 count up from 0xA9 (R68). -/
theorem Reg.code_r_toNat (n : Fin 10) : (Reg.r n).code.toNat = 0xA9 + n.val := by
  simp only [Reg.code, BitVec.toNat_ofNat]
  omega

/-- The codes of P0-P9 count up from 0xB3 (R68). -/
theorem Reg.code_p_toNat (n : Fin 10) : (Reg.p n).code.toNat = 0xB3 + n.val := by
  simp only [Reg.code, BitVec.toNat_ofNat]
  omega

/-- A byte that is no register's code names no register (R69). -/
theorem Reg.ofCode_eq_none {c : Byte} (h : ∀ r : Reg, r.code ≠ c) : Reg.ofCode c = none :=
  Option.eq_none_iff_forall_ne_some.mpr fun r hr => h r (Reg.code_of_ofCode hr)

/-- The bytes that name a register are the ranges 0x5F-0x64 and 0xA9-0xBE: 6 + 22 = 28 of them (R68). -/
theorem Reg.codes_in_order :
    ((List.range 256).filter fun c => (Reg.ofCode (BitVec.ofNat 8 c)).isSome) = List.range' 0x5F 6 ++ List.range' 0xA9 22 := by
  decide

/-- Settles O5: the table row by row, the round trip of codes in both directions, and the list of all bytes that name a register. -/
theorem registerCodeTable : Obligations.RegisterCodeTable := by
  refine ⟨fun n => ⟨Reg.code_r_toNat n, rfl⟩, fun n => ⟨Reg.code_p_toNat n, rfl⟩, ⟨rfl, rfl⟩, ⟨rfl, rfl⟩, ⟨rfl, rfl⟩, ⟨rfl, rfl⟩,
    ⟨rfl, rfl⟩, ⟨rfl, rfl⟩, ⟨rfl, rfl⟩, ⟨rfl, rfl⟩, rfl, rfl, Reg.ofCode_code, fun c => Reg.ofCode_eq_none, ?_⟩
  rw [Reg.codes_in_order]
  rfl

end Sys2Proof
end

section
/-! Pushing a word on a stack in RAM (spec/41_stack.md R100). -/

namespace Sys2Proof.Machine

/-- A 16-bit access is in RAM when both of its bytes are (R42, R49). -/
theorem ramAt_two {s : State} {a : Word} (ram : s.ramAt a 2) : s.isIo a = false ∧ s.isIo (a + 1) = false :=
  ⟨by simpa using ram 0 (by simp), by simpa using ram 1 (by simp)⟩

/-- Settles O40: only SP changes among the registers, and the word is stored at the decremented SP, where both bytes are RAM. -/
theorem push16StoresBelow : Obligations.Push16StoresBelow := by
  intro v s ram
  obtain ⟨ramHigh, ramLow⟩ := ramAt_two ram
  refine ⟨push16_sp v s, fun q hq => ?_, fun x => ?_⟩
  · have hne : q ≠ .sp := by simpa using hq
    rw [push16_stored, if_neg hne]
  · rw [push16_sp]
    exact wordStored_ram_read (push16_stored_at v s) ramHigh ramLow x

end Sys2Proof.Machine
end

section
/-! Encoding and decoding (spec/30_encoding.md R60 to R77): the mode byte of a list of operands, the two directions of the round
trip, and what follows from it about mode bytes, example words, codes outside the tables and lengths. -/

namespace Sys2Proof

open Machine

/-! ### The mode byte of a list of operands (R62, R64, R72) -/

/-- The three mode fields of a mode byte, operand 1 first (R62). -/
def modeFields (m : Byte) : List AddrMode := [modeM1 m, modeM2 m, modeM3 m]

/-- The fields of an encoded mode byte are the operands' modes; the fields of absent operands are zero (R72). -/
theorem modeFields_modeByteOf {ops : List Operand} (h : ops.length ≤ 3) :
    modeFields (modeByteOf ops) = ops.map Operand.mode ++ List.replicate (3 - ops.length) .reg := by
  match ops, h with
  | [], _ => simp [modeFields, modeByteOf]
  | [a], _ => simp [modeFields, modeByteOf, List.replicate]
  | [a, b], _ => simp [modeFields, modeByteOf]
  | [a, b, c], _ => simp [modeFields, modeByteOf]

@[simp] theorem modeDir_modeByteOf (ops : List Operand) : modeDir (modeByteOf ops) = ops.any Operand.dir := by
  simp [modeByteOf]

@[simp] theorem modeX_modeByteOf (ops : List Operand) : modeX (modeByteOf ops) = ops.any Operand.idx := by
  simp [modeByteOf]

/-- A mode byte with the same five fields is the encoded one. -/
theorem eq_modeByteOf {m : Byte} {ops : List Operand} (hl : ops.length ≤ 3)
    (hf : modeFields m = ops.map Operand.mode ++ List.replicate (3 - ops.length) .reg)
    (hd : modeDir m = ops.any Operand.dir) (hx : modeX m = ops.any Operand.idx) : m = modeByteOf ops := by
  rw [← modeFields_modeByteOf hl] at hf
  simp only [modeFields, List.cons.injEq, and_true] at hf
  obtain ⟨h1, h2, h3⟩ := hf
  rw [← modeByte_fields m, ← modeByte_fields (modeByteOf ops), h1, h2, h3, hd, hx, modeDir_modeByteOf, modeX_modeByteOf]

theorem Operand.mode_of_dir {o : Operand} (h : o.dir = true) : o.mode = .mem := by
  cases o with
  | mem m => rfl
  | _ => simp [Operand.dir] at h

theorem Operand.mode_of_idx {o : Operand} (h : o.idx = true) : o.mode = .mem := by
  cases o with
  | mem m => rfl
  | _ => simp [Operand.idx] at h

/-- A flag bit that only memory operands have, that all of them share and that is zero without one, is the operands' flag bit. -/
theorem any_eq_flag {f : Operand → Bool} {ops : List Operand} {b : Bool} (hf : ∀ o, f o = true → o.mode = .mem)
    (h : ∀ o ∈ ops, o.mode = .mem → f o = b) (hb : b = true → .mem ∈ ops.map Operand.mode) : ops.any f = b := by
  rw [Bool.eq_iff_iff, List.any_eq_true]
  constructor
  · rintro ⟨o, ho, hfo⟩
    rw [← h o ho (hf o hfo), hfo]
  · intro e
    obtain ⟨o, ho, hm⟩ := List.mem_map.mp (hb e)
    exact ⟨o, ho, by rw [h o ho hm, e]⟩

/-- A set flag bit has a memory operand it belongs to. -/
theorem mem_of_flags {ops : List Operand} (h : (ops.any Operand.dir || ops.any Operand.idx) = true) :
    .mem ∈ ops.map Operand.mode := by
  rw [Bool.or_eq_true, List.any_eq_true, List.any_eq_true] at h
  rcases h with ⟨o, ho, hf⟩ | ⟨o, ho, hf⟩
  · exact List.mem_map.mpr ⟨o, ho, Operand.mode_of_dir hf⟩
  · exact List.mem_map.mpr ⟨o, ho, Operand.mode_of_idx hf⟩

/-! ### The operands of an admitted form (R75) -/

theorem operands_length_le (i : Instr) : i.operands.length ≤ 2 := by
  cases i <;> simp [Instr.operands]

/-- An admitted form has at most one memory operand, so the flag bits of the mode byte are that operand's. -/
theorem memory_operand_flags {i : Instr} (h : i.WellFormed = true) :
    ∀ o ∈ i.operands, o.mode = .mem → o.dir = i.operands.any Operand.dir ∧ o.idx = i.operands.any Operand.idx := by
  cases i with
  | mov dst src =>
    have one : ¬ (dst.mode = .mem ∧ src.mode = .mem) := by
      rintro ⟨hd, hs⟩
      cases dst <;> cases src <;> simp_all [Operand.mode, Instr.WellFormed, movAdmitted, Operand.isMem]
    have none_of {o : Operand} (ho : o.mode ≠ .mem) : o.dir = false ∧ o.idx = false :=
      ⟨Bool.eq_false_iff.mpr fun e => ho (Operand.mode_of_dir e), Bool.eq_false_iff.mpr fun e => ho (Operand.mode_of_idx e)⟩
    intro o ho hm
    simp only [Instr.operands, List.mem_cons, List.not_mem_nil, or_false] at ho
    rcases ho with rfl | rfl
    · simp [Instr.operands, none_of fun e => one ⟨hm, e⟩]
    · simp [Instr.operands, none_of fun e => one ⟨e, hm⟩]
  | _ => simp [Instr.operands, Operand.mode]

/-! ### The round trip -/

/-- From the mode byte on, the encoding of a well-formed instruction decodes to it. -/
theorem decodeModed_encoded {i : Instr} (h : i.WellFormed = true) (rest : List Byte) :
    decodeModed i.mnemonic (modeByteOf i.operands) (i.operands.flatMap Operand.data ++ rest) = .ok (i, rest) := by
  have fields := modeFields_modeByteOf (Nat.le_succ_of_le (operands_length_le i))
  have used : (modeFields (modeByteOf i.operands)).take i.mnemonic.operandCount = i.operands.map Operand.mode := by
    rw [fields, operandCount_mnemonic, List.take_left' (by simp)]
  have unused : ((modeFields (modeByteOf i.operands)).drop i.mnemonic.operandCount).any (· != .reg) = false := by
    rw [fields, operandCount_mnemonic, List.drop_left' (by simp)]
    simp
  have flags : ((i.operands.any Operand.dir || i.operands.any Operand.idx) &&
      !(i.operands.map Operand.mode).contains .mem) = false := by
    rw [Bool.and_eq_false_imp]
    intro e
    simpa using mem_of_flags e
  unfold modeFields at used unused
  simp only [decodeModed, used, unused, modeDir_modeByteOf, modeX_modeByteOf, flags,
    parseOperands_data i.operands _ _ rest (memory_operand_flags h), admittedForm_operands h, Bool.false_eq_true, if_false]

/-- What an instruction decoded from its mode byte on says about the bytes. -/
theorem of_decodeModed {m : Mnemonic} {mode : Byte} {data rest : List Byte} {i : Instr}
    (h : decodeModed m mode data = .ok (i, rest)) :
    i.WellFormed = true ∧ i.mnemonic = m ∧ mode = modeByteOf i.operands ∧
      data = i.operands.flatMap Operand.data ++ rest := by
  unfold decodeModed at h
  simp only at h
  split at h
  · simp at h
  rename_i ops rest' hops
  split at h
  · simp at h
  rename_i hunused
  split at h
  · simp at h
  rename_i hflags
  split at h
  · simp at h
  rename_i i' hform
  obtain ⟨rfl, rfl⟩ := Prod.mk.inj (Except.ok.inj h)
  obtain ⟨hwf, rfl, rfl⟩ := of_admittedForm hform
  obtain ⟨hmodes, hdata, hmem⟩ := of_parseOperands hops
  refine ⟨hwf, rfl, ?_, hdata⟩
  have hlen := operands_length_le i'
  have hunused : (modeFields mode).drop i'.operands.length = List.replicate (3 - i'.operands.length) .reg := by
    rw [operandCount_mnemonic] at hunused
    refine List.eq_replicate_iff.mpr ⟨by simp [modeFields], fun a ha => ?_⟩
    simpa using (List.any_eq_false.mp (Bool.eq_false_iff.mpr hunused)) a ha
  have hfields : modeFields mode =
      i'.operands.map Operand.mode ++ List.replicate (3 - i'.operands.length) .reg := by
    rw [← hunused, hmodes, operandCount_mnemonic]
    exact (List.take_append_drop ..).symm
  have flagged (e : (modeDir mode || modeX mode) = true) : .mem ∈ i'.operands.map Operand.mode := by
    rw [hmodes]
    simpa [e] using hflags
  exact eq_modeByteOf (by omega) hfields
    (any_eq_flag (fun _ => Operand.mode_of_dir) (fun o ho hm => (hmem o ho hm).1) fun e => flagged (by simp [e])).symm
    (any_eq_flag (fun _ => Operand.mode_of_idx) (fun o ho hm => (hmem o ho hm).2) fun e => flagged (by simp [e])).symm

/-- With a mode byte, the bytes after a mnemonic's opcode byte are decoded from the mode byte on (R66). -/
theorem decode_opcode_mode {cfg : Config} (legal : cfg.OpcodesLegal) {m : Mnemonic}
    (hm : ¬ (m.operandCount = 0 ∧ cfg.zeroOperandModeByte = .absent)) (mode : Byte) (data : List Byte) :
    decode cfg (cfg.opcode m :: mode :: data) = decodeModed m mode data := by
  simp only [decode, Config.mnemonicOf_opcode legal, if_neg hm]

/-- Settles O1: opcode byte, mode byte and operand data are each read back. -/
theorem decodeOfEncodeIsTheInstruction : Obligations.DecodeOfEncodeIsTheInstruction := by
  intro cfg i rest legal wf
  have count : i.mnemonic.operandCount = 0 ↔ i.operands = [] := by
    rw [operandCount_mnemonic, List.length_eq_zero_iff]
  unfold encode
  split
  case isTrue alone =>
    have form := admittedForm_operands wf
    rw [alone.1] at form
    simp only [List.cons_append, List.nil_append, decode, Config.mnemonicOf_opcode legal, count, if_pos alone, form]
  case isFalse moded =>
    rw [List.cons_append, List.cons_append, decode_opcode_mode legal (by rwa [count])]
    exact decodeModed_encoded wf rest

/-- Settles O2: the opcode byte fixes the mnemonic, the mode byte is the one the operands have, and the data is theirs. -/
theorem decodedBytesAreTheEncoding : Obligations.DecodedBytesAreTheEncoding := by
  intro cfg bs i rest h
  cases bs with
  | nil => simp [decode] at h
  | cons opc bs =>
    simp only [decode] at h
    split at h
    · simp at h
    rename_i m hm
    obtain rfl := Config.opcode_of_mnemonicOf hm
    split at h
    case isTrue alone =>
      split at h
      · simp at h
      rename_i i' hform
      obtain ⟨rfl, rfl⟩ := Prod.mk.inj (Except.ok.inj h)
      obtain ⟨hwf, rfl, hops⟩ := of_admittedForm hform
      exact ⟨hwf, by simp [encode, hops, alone.2]⟩
    case isFalse moded =>
      split at h
      · simp at h
      obtain ⟨hwf, rfl, rfl, rfl⟩ := of_decodeModed h
      rw [operandCount_mnemonic, List.length_eq_zero_iff] at moded
      exact ⟨hwf, by simp [encode, if_neg moded]⟩

/-! ### The admitted mode bytes (R75) -/

theorem modeByteOf_single (o : Operand) : modeByteOf [o] = modeByte o.dir o.idx .reg .reg o.mode := by
  simp [modeByteOf]

theorem modeByteOf_pair (dst src : Operand) :
    modeByteOf [dst, src] = modeByte (dst.dir || src.dir) (dst.idx || src.idx) .reg src.mode dst.mode := by
  simp [modeByteOf]

/-- The mode byte of an admitted form is in the table's list for its mnemonic. -/
theorem modeByteOf_admitted {i : Instr} (h : i.WellFormed = true) : modeByteOf i.operands ∈ admittedModes i.mnemonic := by
  cases i with
  | mov dst src =>
    cases dst with
    | reg d =>
      rcases src with q | v | v | (a | b | ⟨b, o⟩) <;>
        (simp only [Instr.operands, modeByteOf_pair, Operand.mode, Operand.dir, Operand.idx, Instr.mnemonic]; decide)
    | mem m =>
      cases src with
      | mem m' => cases h
      | _ =>
        rcases m with a | b | ⟨b, o⟩ <;>
          (simp only [Instr.operands, modeByteOf_pair, Operand.mode, Operand.dir, Operand.idx, Instr.mnemonic]; decide)
    | _ => cases h
  | pusha | popa | pushf | popf | ret | iret => decide
  | _ => simp only [Instr.operands, modeByteOf_single, Operand.mode, Operand.dir, Operand.idx, Instr.mnemonic]; decide

/-- One instruction for each row of the table of admitted forms, in the table's order. -/
def sampleForms : Mnemonic → List Instr
  | .mov =>
    let r : Operand := .reg (.r 0)
    let direct : Operand := .mem (.direct 0)
    let indirect : Operand := .mem (.indirect (.r 0))
    let indexed : Operand := .mem (.indexed (.r 0) 0)
    [.mov r r, .mov r (.imm8 0), .mov r (.imm16 0), .mov r direct, .mov r indirect, .mov r indexed,
      .mov direct r, .mov direct (.imm8 0), .mov direct (.imm16 0), .mov indirect r, .mov indirect (.imm8 0),
      .mov indirect (.imm16 0), .mov indexed r, .mov indexed (.imm8 0), .mov indexed (.imm16 0)]
  | .push => [.push (.r 0)]
  | .pop => [.pop (.r 0)]
  | .pusha => [.pusha]
  | .popa => [.popa]
  | .pushf => [.pushf]
  | .popf => [.popf]
  | .call => [.call 0]
  | .ret => [.ret]
  | .int => [.int 0]
  | .iret => [.iret]

theorem sampleForms_modes (m : Mnemonic) : (sampleForms m).map (fun i => modeByteOf i.operands) = admittedModes m := by
  cases m <;> decide

theorem sampleForms_wellFormed (m : Mnemonic) : ∀ i ∈ sampleForms m, i.WellFormed = true ∧ i.mnemonic = m := by
  cases m <;> decide

/-- With a mode byte everywhere, an encoding is opcode byte, mode byte and operand data (R60). -/
theorem encode_present {cfg : Config} (h : cfg.zeroOperandModeByte = .present) (i : Instr) :
    encode cfg i = cfg.opcode i.mnemonic :: modeByteOf i.operands :: i.operands.flatMap Operand.data := by
  simp [encode, h]

/-- Settles O3: what decodes is an encoding, whose mode byte is listed; and each listed mode byte is that of a sample form. -/
theorem modeBytesAreTheAdmittedOnes : Obligations.ModeBytesAreTheAdmittedOnes := by
  intro cfg m mode legal present
  constructor
  · rintro ⟨data, i, rest, hd, rfl⟩
    rw [decode_opcode_mode legal (by simp [present])] at hd
    obtain ⟨wf, -, rfl, -⟩ := of_decodeModed hd
    exact modeByteOf_admitted wf
  · intro hmode
    rw [← sampleForms_modes, List.mem_map] at hmode
    obtain ⟨i, hi, rfl⟩ := hmode
    obtain ⟨wf, rfl⟩ := sampleForms_wellFormed m i hi
    refine ⟨i.operands.flatMap Operand.data, i, [], ?_, rfl⟩
    have := decodeOfEncodeIsTheInstruction cfg i [] legal wf
    rwa [encode_present present, List.append_nil] at this

/-! ### Example words -/

/-- A word that is the encoding of a well-formed instruction decodes to it. -/
theorem decode_of_encode_eq {cfg : Config} (legal : cfg.OpcodesLegal) {i : Instr} {bs : List Byte} (wf : i.WellFormed = true)
    (h : encode cfg i = bs) : decode cfg bs = .ok (i, []) := by
  have := decodeOfEncodeIsTheInstruction cfg i [] legal wf
  rwa [List.append_nil, h] at this

/-- Settles O6: each word is the encoding of what it stands for. -/
theorem specExamplesDecode : Obligations.SpecExamplesDecode := by
  intro cfg legal
  refine ⟨decode_of_encode_eq legal rfl rfl, decode_of_encode_eq legal rfl rfl, decode_of_encode_eq legal rfl rfl,
    decode_of_encode_eq legal rfl rfl, decode_of_encode_eq legal rfl rfl, decode_of_encode_eq legal rfl rfl,
    decode_of_encode_eq legal rfl rfl, decode_of_encode_eq legal rfl rfl, decode_of_encode_eq legal rfl rfl,
    decode_of_encode_eq legal rfl rfl, fun present => decode_of_encode_eq legal rfl ?_,
    fun absent => decode_of_encode_eq legal rfl ?_⟩
  · rw [encode_present present]
    rfl
  · simp [encode, absent, Instr.operands, Instr.mnemonic, Config.opcode]

/-! ### Codes outside the tables (R76) -/

/-- An operand that cannot be read is the error of the whole instruction (R66). -/
theorem decodeModed_error {m : Mnemonic} {mode : Byte} {data : List Byte} {e : DecodeError}
    (h : parseOperands (modeDir mode) (modeX mode) ((modeFields mode).take m.operandCount) data = .error e) :
    decodeModed m mode data = .error e := by
  unfold modeFields at h
  simp only [decodeModed, h]

theorem parseOperand_unknownRegister (dir x : Bool) {c : Byte} (h : Reg.ofCode c = none) (rest : List Byte) :
    parseOperand dir x .reg (c :: rest) = .error (.unknownRegister c) := by
  simp [parseOperand, h]

theorem parseOperand_unknownBase (x : Bool) {c : Byte} (h : Base.ofCode c = none) (rest : List Byte) :
    parseOperand false x .mem (c :: rest) = .error (.unknownBase c) := by
  simp [parseOperand, h]

/-- The first operand's error is the error of the operands. -/
theorem parseOperands_first_error {dir x : Bool} {m : AddrMode} {bs : List Byte} {e : DecodeError}
    (h : parseOperand dir x m bs = .error e) (ms : List AddrMode) : parseOperands dir x (m :: ms) bs = .error e := by
  simp [parseOperands, h]

/-- After a register operand the next operand's error is the error of the operands. -/
theorem parseOperands_second_error {dir x : Bool} {m : AddrMode} {d : Byte} {bs : List Byte} {e : DecodeError}
    (hd : (Reg.ofCode d).isSome = true) (h : parseOperand dir x m bs = .error e) (ms : List AddrMode) :
    parseOperands dir x (.reg :: m :: ms) (d :: bs) = .error e := by
  obtain ⟨r, hr⟩ := Option.isSome_iff_exists.mp hd
  have hreg : parseOperand dir x .reg (d :: bs) = .ok (.reg r, bs) := by simp [parseOperand, hr]
  simp only [parseOperands, hreg, h]

/-- Settles O7: the opcode byte is looked up first, then the operands are read in order. -/
theorem codesOutsideTheTablesAreRefused : Obligations.CodesOutsideTheTablesAreRefused := by
  intro cfg legal
  have mov : ¬ (Mnemonic.mov.operandCount = 0 ∧ cfg.zeroOperandModeByte = .absent) := by simp [Mnemonic.operandCount]
  refine ⟨fun opc rest h => ?_, fun m mode c rest hm h1 hc => ?_, fun mode d c rest h1 h2 hd hc => ?_,
    fun mode c rest h1 hdir hc => ?_, fun mode d c rest h1 h2 hdir hd hc => ?_⟩
  · have : cfg.mnemonicOf opc = none := List.find?_eq_none.mpr fun m _ => by simpa using h m
    simp only [decode, this]
  · rw [decode_opcode_mode legal (by omega)]
    obtain ⟨k, hk⟩ : ∃ k, m.operandCount = k + 1 := ⟨m.operandCount - 1, by omega⟩
    apply decodeModed_error
    rw [hk, modeFields, List.take_succ_cons, h1]
    exact parseOperands_first_error (parseOperand_unknownRegister _ _ hc rest) _
  · rw [decode_opcode_mode legal mov]
    apply decodeModed_error
    rw [modeFields, h1, h2]
    exact parseOperands_second_error hd (parseOperand_unknownRegister _ _ hc rest) _
  · rw [decode_opcode_mode legal mov]
    apply decodeModed_error
    rw [modeFields, h1, hdir]
    exact parseOperands_first_error (parseOperand_unknownBase _ hc rest) _
  · rw [decode_opcode_mode legal mov]
    apply decodeModed_error
    rw [modeFields, h1, h2, hdir]
    exact parseOperands_second_error hd (parseOperand_unknownBase _ hc rest) _

/-! ### Lengths (R65) -/

/-- An operand has as many data bytes as its mode says under its own flag bits. -/
theorem Operand.data_length (o : Operand) : o.data.length = o.mode.size o.dir o.idx := by
  rcases o with r | v | v | (a | b | ⟨b, o⟩) <;> rfl

/-- The flag bits matter to memory operands only. -/
theorem AddrMode.size_of_ne_mem {m : AddrMode} (h : m ≠ .mem) (dir x dir' x' : Bool) : m.size dir x = m.size dir' x' := by
  cases m with
  | mem => exact absurd rfl h
  | _ => rfl

/-- In an admitted form every operand has as many data bytes as its mode says under the mode byte's flag bits. -/
theorem operand_data_length {i : Instr} (h : i.WellFormed = true) {o : Operand} (ho : o ∈ i.operands) :
    o.data.length = o.mode.size (i.operands.any Operand.dir) (i.operands.any Operand.idx) := by
  rw [Operand.data_length]
  by_cases hm : o.mode = .mem
  · obtain ⟨hd, hx⟩ := memory_operand_flags h o ho hm
    rw [hd, hx]
  · exact AddrMode.size_of_ne_mem hm ..

/-- Settles O8: opcode byte, mode byte and the operands' data. -/
theorem lengthOfAnInstruction : Obligations.LengthOfAnInstruction := by
  intro cfg i wf
  refine ⟨fun h => ?_, fun absent none => by simp [Instr.length, encode, absent, none]⟩
  have moded : ¬ (i.operands = [] ∧ cfg.zeroOperandModeByte = .absent) := by
    rintro ⟨h1, h2⟩
    simp [h1, h2] at h
  have len : i.length cfg = 2 + (i.operands.map fun o => o.data.length).sum := by
    simp only [Instr.length, encode, if_neg moded, List.length_cons, List.length_flatMap]
    omega
  refine ⟨?_, by omega, length_le cfg i⟩
  rw [len, List.map_congr_left fun o ho => operand_data_length wf ho]

end Sys2Proof
end

section
/-! One step (spec/10_state.md R18; spec/60_exceptions.md R144 to R149): fetching, the choice between an interrupt and an
instruction, and what every step keeps. -/

namespace Sys2Proof.Machine

/-! ### Fetching and running the decoded instruction -/

theorem runInstruction_of_fetch {s s1 : State} {i : Instr} (h : fetch s = some (i, s1)) : runInstruction s = exec i s1 := by
  simp only [runInstruction, h]

theorem runInstruction_of_fetch_none {s : State} (h : fetch s = none) : runInstruction s = .fault (.illegalInstruction s.pc) := by
  simp only [runInstruction, h]

/-- With no interrupt accepted a step runs the instruction at PC (R146). -/
theorem step_of_not_accepted {s : State} (h : acceptedVector (devicesMove s) = none) :
    step s = runInstruction (devicesMove s) := by
  simp only [step, h]

/-- Settles O13: the step's own choice. -/
theorem acceptedInterruptIsTaken : Obligations.AcceptedInterruptIsTaken := by
  intro s v h
  simp only [step, h]

/-- Settles O9: what is fetched is what is decoded from the bytes at PC. -/
theorem stepRunsTheDecodedInstruction : Obligations.StepRunsTheDecodedInstruction := by
  intro s i rest accepted decoded
  rw [step_of_not_accepted accepted, runInstruction_of_fetch (fetch_of_decode decoded)]

/-- Settles O12: bytes that do not decode fetch nothing. -/
theorem undecodableBytesStop : Obligations.UndecodableBytesStop := by
  intro s e accepted undecoded
  rw [step_of_not_accepted accepted, runInstruction_of_fetch_none (fetch_of_error undecoded)]

/-- The bytes of an instruction that lie in RAM at an address are the first bytes read from there. -/
theorem readBytes_of_code {s : State} {a : Word} {bs : List Byte} {n : Nat} (hn : bs.length ≤ n) (ram : s.ramAt a bs.length)
    (code : ∀ k : Fin bs.length, s.mem.read (a + BitVec.ofNat 16 k.val) = bs.get k) :
    (readBytes n a s).1 = bs ++ (readBytes n a s).1.drop bs.length := by
  have first : (readBytes bs.length a s).1 = bs := by
    rw [readBytes_ram _ _ _ ram]
    exact List.ext_getElem (by simp) fun k hk hk' => by simpa using code ⟨k, hk'⟩
  calc (readBytes n a s).1
    _ = (readBytes n a s).1.take bs.length ++ (readBytes n a s).1.drop bs.length := (List.take_append_drop ..).symm
    _ = bs ++ (readBytes n a s).1.drop bs.length := by rw [readBytes_take _ _ _ _ hn, first]

/-- Settles O10: the bytes at PC are the encoding and some more, so they decode to the instruction (O1). -/
theorem stepRunsTheEncodedInstruction : Obligations.StepRunsTheEncodedInstruction := by
  rintro s s1 i rfl accepted legal wf ram code
  have hlen : (encode (devicesMove s).cfg i).length ≤ 8 := (length_le _ i).trans (by decide)
  have decoded := decodeOfEncodeIsTheInstruction _ i
    ((readBytes 8 (devicesMove s).pc (devicesMove s)).1.drop (encode (devicesMove s).cfg i).length) legal wf
  rw [← readBytes_of_code hlen ram code] at decoded
  unfold Instr.length at ram ⊢
  rw [stepRunsTheDecodedInstruction s i _ accepted decoded, List.length_drop, readBytes_length, Nat.sub_sub_self hlen,
    readBytes_ram _ _ _ ram]

/-- Settles O11: the bytes read are the encoding (O2) and the bytes after it, so PC moves by the encoding's length. -/
theorem fetchAdvancesPastTheInstruction : Obligations.FetchAdvancesPastTheInstruction := by
  intro s s1 i h
  obtain ⟨rest, decoded, rfl⟩ := decode_of_fetch h
  obtain ⟨wf, bytes⟩ := decodedBytesAreTheEncoding _ _ _ _ decoded
  have len : 8 - rest.length = i.length s.cfg := by
    have := congrArg List.length bytes
    rw [readBytes_length, List.length_append] at this
    unfold Instr.length
    omega
  refine ⟨wf, ?_⟩
  rw [len, readBytes_state]
  rfl

/-! ### Which interrupt is accepted -/

theorem acceptedVector_enabled {s : State} (h : flagOf s.f .i = true) : acceptedVector s = pendingVector s := if_pos h

theorem acceptedVector_disabled {s : State} (h : flagOf s.f .i = false) : acceptedVector s = none := by
  simp [acceptedVector, h]

/-- Settles O14: F.I decides whether one is accepted, and of the pending ones the first in rising order is. -/
theorem acceptedVectorIsTheHighestPriorityPending : Obligations.AcceptedVectorIsTheHighestPriorityPending := by
  intro s
  cases h : flagOf s.f .i with
  | false => simp [acceptedVector_disabled h]
  | true => simp [acceptedVector_enabled h, pendingVector_some, pendingVector_none]

/-- Settles O15: the devices do not touch F, so nothing is accepted after their moves either. -/
theorem noInterruptWhileDisabled : Obligations.NoInterruptWhileDisabled := by
  intro s h
  exact step_of_not_accepted (acceptedVector_disabled (by rwa [devicesMove_f]))

/-! ### Hardware interrupt entry (R149) -/

theorem takeInterrupt_clearOnEntry {s : State} (h : s.cfg.irqAck = .clearOnEntry) (v : Vec) :
    takeInterrupt v s = enterHandler v (s.setIrq v false) := by
  simp only [takeInterrupt, h]

theorem takeInterrupt_deviceHeld {s : State} (h : s.cfg.irqAck = .deviceHeld) (v : Vec) :
    takeInterrupt v s = enterHandler v s := by
  simp only [takeInterrupt, h]

/-- Handler entry does not depend on the pending bits. -/
theorem handlerEntered_of_setIrq {s t : State} {u v : Vec} {b : Bool} (h : handlerEntered (s.setIrq u b) t v) :
    handlerEntered s t v := by
  obtain ⟨sp, regs, rest⟩ := h
  exact ⟨sp, fun q hq => (regs q hq).trans (State.stored_setIrq s u b q), rest⟩

theorem takeInterrupt_entered (v : Vec) (s : State) : handlerEntered s (takeInterrupt v s) v := by
  cases h : s.cfg.irqAck with
  | clearOnEntry =>
    rw [takeInterrupt_clearOnEntry h]
    exact handlerEntered_of_setIrq (enterHandler_entered v _)
  | deviceHeld =>
    rw [takeInterrupt_deviceHeld h]
    exact enterHandler_entered v s

/-- Settles O16: the pending bit is cleared before the handler is entered, or left to the device. -/
theorem interruptEntryResult : Obligations.InterruptEntryResult := by
  intro v s
  refine ⟨takeInterrupt_entered v s, fun h u => ?_, fun h => ?_⟩
  · rw [takeInterrupt_clearOnEntry h, enterHandler_irq, State.setIrq_irq_get]
  · rw [takeInterrupt_deviceHeld h, enterHandler_irq]

@[simp] theorem takeInterrupt_keyboard (v : Vec) (s : State) : (takeInterrupt v s).keyboard = s.keyboard := by
  unfold takeInterrupt
  split <;> simp

@[simp] theorem takeInterrupt_agenda (v : Vec) (s : State) : (takeInterrupt v s).agenda = s.agenda := by
  unfold takeInterrupt
  split <;> simp

/-- Taking an interrupt requests nothing. -/
theorem takeInterrupt_requests {s : State} {u v : Vec} (h : (takeInterrupt v s).irq.get u = true) : s.irq.get u = true := by
  obtain ⟨-, clear, held⟩ := interruptEntryResult v s
  cases hack : s.cfg.irqAck with
  | clearOnEntry =>
    rw [clear hack] at h
    split at h
    · cases h
    · exact h
  | deviceHeld => rwa [held hack] at h

/-- Taking an interrupt leaves every other request. -/
theorem takeInterrupt_keeps {s : State} {u v : Vec} (hne : u ≠ v) (h : s.irq.get u = true) :
    (takeInterrupt v s).irq.get u = true := by
  obtain ⟨-, clear, held⟩ := interruptEntryResult v s
  cases hack : s.cfg.irqAck with
  | clearOnEntry => rwa [clear hack, if_neg hne]
  | deviceHeld => rwa [held hack]

/-! ### What every step keeps -/

theorem outsideSame.trans {s t u : State} (h : outsideSame s t) (k : outsideSame t u) : outsideSame s u := by
  obtain ⟨h1, h2, h3, h4⟩ := h
  obtain ⟨k1, k2, k3, k4⟩ := k
  exact ⟨k1.trans h1, k2.trans h2, k3.trans h3, k4.trans h4⟩

/-- A fetch touches nothing outside the CPU and no memory. -/
theorem fetch_outsideSame {s s1 : State} {i : Instr} (h : fetch s = some (i, s1)) : outsideSame s s1 ∧ s1.mem = s.mem := by
  rw [fetch_frame h]
  exact ⟨⟨rfl, rfl, rfl, rfl⟩, rfl⟩

/-- After the devices' moves a step takes the accepted interrupt, or runs an instruction, which touches nothing outside the CPU. -/
theorem step_outside {s t : State} (h : step s = .next t) :
    (∃ v, acceptedVector (devicesMove s) = some v ∧ t = takeInterrupt v (devicesMove s)) ∨ outsideSame (devicesMove s) t := by
  rcases step_next h with taken | ⟨-, i, s1, hf, he⟩
  · exact .inl taken
  · exact .inr ((fetch_outsideSame hf).1.trans (exec_outsideSame he))

theorem step_wf {s t : State} (h : step s = .next t) (hw : s.mem.wf) : t.mem.wf := by
  rcases step_next h with ⟨v, -, rfl⟩ | ⟨-, i, s1, hf, he⟩
  · exact takeInterrupt_wf (by rwa [devicesMove_mem]) v
  · refine exec_wf he ?_
    rwa [(fetch_outsideSame hf).2, devicesMove_mem]

/-- Settles O47: the devices' moves keep the invariant, and what follows adds no key and no request. -/
theorem stepKeepsInv : Obligations.StepKeepsInv := by
  rintro s t ⟨hmem, hdevices⟩ h
  refine ⟨step_wf h hmem, ?_⟩
  obtain ⟨keys, sources⟩ := devicesMove_ok hdevices
  rcases step_outside h with ⟨v, -, rfl⟩ | ⟨hirq, hkeyboard, -, hcfg⟩
  · rw [takeInterrupt_keyboard, takeInterrupt_cfg]
    exact ⟨keys, fun u hu => sources u (takeInterrupt_requests hu)⟩
  · rw [hirq, hkeyboard, hcfg]
    exact ⟨keys, sources⟩

/-- Settles O48: devices, interrupt entry and instructions all leave the parameters. -/
theorem stepKeepsConfig : Obligations.StepKeepsConfig := by
  intro s t h
  rcases step_outside h with ⟨v, -, rfl⟩ | ⟨-, -, -, hcfg⟩
  · rw [takeInterrupt_cfg, devicesMove_cfg]
  · rw [hcfg, devicesMove_cfg]

/-- Every step takes one boundary of the agenda (R176). -/
theorem step_agenda {s t : State} (h : step s = .next t) : t.agenda = s.agenda.next.2 := by
  rcases step_outside h with ⟨v, -, rfl⟩ | ⟨-, -, hagenda, -⟩
  · rw [takeInterrupt_agenda, devicesMove_agenda]
  · rw [hagenda, devicesMove_agenda]

end Sys2Proof.Machine
end

section
/-! What a run starts from (spec/10_state.md R33, spec/70_reset_and_hazards.md R170, R171). -/

namespace Sys2Proof.Machine

@[simp] theorem launch_sp (cfg : Config) (image : Memory) (devices : Agenda) : (State.launch cfg image devices).sp = 0xFFFF := by
  change ((cfg.resetValues.p.push 0xFFFF).push 0xFFFF)[8] = 0xFFFF
  simp

@[simp] theorem launch_fp (cfg : Config) (image : Memory) (devices : Agenda) : (State.launch cfg image devices).fp = 0xFFFF := by
  change ((cfg.resetValues.p.push 0xFFFF).push 0xFFFF)[9] = 0xFFFF
  simp

theorem launch_p_get (cfg : Config) (image : Memory) (devices : Agenda) (n : Fin 8) :
    (State.launch cfg image devices).p.get (n.castLE (by decide)) = cfg.resetValues.p.get n := by
  change ((cfg.resetValues.p.push 0xFFFF).push 0xFFFF)[n.val] = cfg.resetValues.p[n.val]
  rw [Vector.getElem_push_lt (by omega), Vector.getElem_push_lt n.isLt]

/-- Settles O45. -/
theorem launchSetsStackAndFramePointer : Obligations.LaunchSetsStackAndFramePointer :=
  ⟨fun cfg image devices => ⟨launch_sp cfg image devices, launch_fp cfg image devices⟩, launch_sp .., launch_fp ..⟩

/-- Settles O57. -/
theorem launchTakesItsValuesFromTheArguments : Obligations.LaunchTakesItsValuesFromTheArguments := by
  intro cfg image devices
  exact ⟨_, rfl, rfl, rfl, fun _ => rfl, launch_p_get cfg image devices, launch_sp cfg image devices, launch_fp cfg image devices,
    rfl, rfl, rfl, rfl, rfl, rfl, rfl, rfl, rfl, rfl, rfl, rfl, rfl⟩

/-- Settles O58. -/
theorem invAtEveryLaunch : Obligations.InvAtEveryLaunch := by
  intro cfg image devices wf keys sources
  exact ⟨wf, keys, sources⟩

/-- Settles O46: reset is a launch with an empty image, no key and no request. -/
theorem invAtReset : Obligations.InvAtReset := by
  refine invAtEveryLaunch _ _ _ Memory.wf_nil (by decide) fun v hv => ?_
  simp [defaultConfig, zeroResetValues] at hv

end Sys2Proof.Machine
end

section
/-! The devices' moves and the agenda that never runs out (spec/60_exceptions.md R144, R145, R150, R153, R176). -/

namespace Sys2Proof.Machine

/-- Under `clear-on-entry` the devices' moves withdraw no request. -/
theorem devicesMove_keeps {s : State} (h : s.cfg.irqAck = .clearOnEntry) {v : Vec} (hv : s.irq.get v = true) :
    (devicesMove s).irq.get v = true :=
  applyEvents_keeps (s := { s with agenda := s.agenda.next.2 }) h hv _

/-- The devices' moves request only vectors of `IRQ_SOURCES`. -/
theorem devicesMove_requests {s : State} {v : Vec} (h : (devicesMove s).irq.get v = true) :
    s.irq.get v = true ∨ v ∈ s.cfg.irqSources :=
  applyEvents_requests (s := { s with agenda := s.agenda.next.2 }) _ h

/-- Settles O18: the frame of the devices' moves, and which requests they withdraw and make. -/
theorem deviceMovesTouchOnlyDeviceState : Obligations.DeviceMovesTouchOnlyDeviceState := by
  intro s
  exact ⟨_, rfl, fun q hq => devicesMove_stored s (by simpa using hq), devicesMove_pc s, devicesMove_f s,
    ⟨devicesMove_mem s, devicesMove_deviceWrites s⟩, devicesMove_draws s, devicesMove_cfg s,
    fun h v hv => devicesMove_keeps h hv, fun v hv => devicesMove_requests hv⟩

/-- Settles O19: neither the devices, nor another vector's entry, nor an instruction clears the request. -/
theorem requestStaysPendingUntilTaken : Obligations.RequestStaysPendingUntilTaken := by
  intro s t v ack hv hne h
  have pending := devicesMove_keeps ack hv
  rcases step_outside h with ⟨u, hu, rfl⟩ | ⟨hirq, -⟩
  · have other : v ≠ u := by
      rintro rfl
      exact hne hu
    exact takeInterrupt_keeps other pending
  · rwa [hirq]

/-- Settles O17: with the agenda whose next boundary has the two moves. -/
theorem devicesMayMoveAtAnyBoundary : Obligations.DevicesMayMoveAtAnyBoundary := by
  intro s v count hv
  exact ⟨⟨[[.request v, .timerCount count]], .cycle []⟩, by simp [devicesMove, applyEvents, applyEvent, hv]⟩

end Sys2Proof.Machine

namespace Sys2Proof

/-! ### The coming boundaries of an agenda (R176) -/

theorem Agenda.after_succ (a : Agenda) (k : Nat) : a.after (k + 1) = a.next.2.after k := by
  induction k with
  | zero => rfl
  | succ k ih => rw [Agenda.after, ih]; rfl

theorem Agenda.movesAt_succ (a : Agenda) (k : Nat) : a.movesAt (k + 1) = a.next.2.movesAt k := by
  unfold Agenda.movesAt
  rw [Agenda.after_succ]

/-- The moves written out come first, one boundary each. -/
theorem Agenda.movesAt_ahead (ahead : List (List DeviceEvent)) (recurrence : Recurrence) (k : Nat) (h : k < ahead.length) :
    (⟨ahead, recurrence⟩ : Agenda).movesAt k = ahead[k] := by
  induction ahead generalizing k with
  | nil => exact absurd h (by simp)
  | cons es rest ih =>
    cases k with
    | zero => rfl
    | succ k =>
      rw [Agenda.movesAt_succ]
      exact ih k (by simpa using h)

/-- The recurrence follows the moves written out. -/
theorem Agenda.movesAt_recurrence (ahead : List (List DeviceEvent)) (recurrence : Recurrence) (k : Nat) :
    (⟨ahead, recurrence⟩ : Agenda).movesAt (ahead.length + k) = (⟨[], recurrence⟩ : Agenda).movesAt k := by
  induction ahead with
  | nil => rw [List.length_nil, Nat.zero_add]
  | cons es rest ih =>
    rw [List.length_cons, Nat.add_right_comm, Agenda.movesAt_succ]
    exact ih

/-- Each boundary of a cycle rotates it by one. -/
theorem Agenda.after_cycle (moves : List (List DeviceEvent)) (k : Nat) :
    (⟨[], .cycle moves⟩ : Agenda).after k = ⟨[], .cycle (moves.rotate k)⟩ := by
  induction k generalizing moves with
  | zero => rw [List.rotate_zero]; rfl
  | succ k ih =>
    rw [Agenda.after_succ]
    cases moves with
    | nil => exact ih []
    | cons es rest => rw [Agenda.next_cycle, ih, List.rotate_cons_succ]

theorem Agenda.next_cycle_fst {moves : List (List DeviceEvent)} (h : 0 < moves.length) :
    (⟨[], .cycle moves⟩ : Agenda).next.1 = moves[0] := by
  cases moves with
  | nil => cases h
  | cons es rest => rfl

/-- A cycle comes over and over again. -/
theorem Agenda.movesAt_cycle (moves : List (List DeviceEvent)) (k : Nat) (h : k % moves.length < moves.length) :
    (⟨[], .cycle moves⟩ : Agenda).movesAt k = moves[k % moves.length] := by
  have nonempty : 0 < (moves.rotate k).length := by
    rw [List.length_rotate]
    omega
  rw [Agenda.movesAt, Agenda.after_cycle, Agenda.next_cycle_fst nonempty, List.getElem_rotate]
  simp only [Nat.zero_add]

/-- The free schedule goes on boundary by boundary. -/
theorem Agenda.movesAt_free (n k : Nat) : (⟨[], .free n⟩ : Agenda).movesAt k = Config.freeMoves (n + k) := by
  induction k generalizing n with
  | zero => rfl
  | succ k ih => rw [Agenda.movesAt_succ, Agenda.next_free, ih, Nat.add_right_comm, Nat.add_assoc]

open Machine

/-- Settles O59: the agenda's coming boundaries, and the agenda that requests the vector at each of them. -/
theorem devicesMayMoveForEver : Obligations.DevicesMayMoveForEver := by
  refine ⟨fun s t => step_agenda, fun ahead r k => ⟨Agenda.movesAt_ahead ahead r k, Agenda.movesAt_recurrence ahead r k⟩,
    Agenda.movesAt_cycle, Agenda.movesAt_free, fun s v hv ha => ⟨?_, fun t ht => ⟨?_, stepKeepsConfig s t ht⟩⟩⟩
  · simp [devicesMove, ha, applyEvents, applyEvent, hv]
  · rw [step_agenda ht, ha]
    rfl

end Sys2Proof
end

section
/-! Memory, flags and byte views (spec/10_state.md sections 1 and 3, spec/20_memory.md sections 2 and 3), and source lines with
byte views (spec/30_encoding.md R70). -/

namespace Sys2Proof.Machine

/-! ### Reads in and outside RAM (R43) -/

theorem readByte_ram {s : State} {a : Word} (h : s.isIo a = false) : readByte a s = (s.mem.read a, s) := by
  simp [readByte, h]

theorem readByte_io {s : State} {a : Word} (h : s.isIo a = true) : readByte a s = drawByte s := by
  simp [readByte, h]

/-- Where RAM lies depends on the parameters alone (R49). -/
theorem ramAt_of_cfg {s t : State} {a : Word} {n : Nat} (h : t.cfg = s.cfg) (ram : s.ramAt a n) : t.ramAt a n := by
  unfold State.ramAt State.isIo at *
  rwa [h]

/-- Settles O36: a read of RAM, a draw, and a word read byte by byte. -/
theorem memReadValue : Obligations.MemReadValue := by
  intro a s
  refine ⟨fun h => ?_, fun h => ?_, rfl⟩
  · rw [readByte_ram h]
    exact ⟨rfl, rfl⟩
  · rw [readByte_io h]
    exact ⟨rfl, rfl⟩

/-- Settles O38: a byte read in RAM is the last byte stored there (R44). -/
theorem mixedWidthAccesses : Obligations.MixedWidthAccesses := by
  intro a v h l s ram
  obtain ⟨ram0, ram1⟩ := ramAt_two ram
  have hne : a + 1 ≠ a := by bv_omega
  have word := wordStored_ram_read (writeWord_stored_at a v s) ram0 ram1
  have high := byteStored_ram_read (writeByte_stored_at a h s) ram0
  have low := byteStored_ram_read (writeByte_stored_at (a + 1) l (writeByte a h s)) (by rwa [writeByte_isIo])
  refine ⟨?_, ?_, ?_⟩
  · rw [readByte_ram (by rwa [writeWord_isIo]), word, if_pos rfl]
  · rw [readByte_ram (by rwa [writeWord_isIo]), word, if_neg hne, if_pos rfl]
  · have ram' : State.ramAt (writeByte (a + 1) l (writeByte a h s)) a 2 := ramAt_of_cfg (by simp) ram
    rw [readWord_eq, (wordSeen_ram ram').1, State.ramWord, low, low, if_pos rfl, if_neg hne.symm, high, if_pos rfl]
    rfl

/-! ### Canonical memories (log 7) -/

/-- The first cell of a canonical memory holds a byte of its own at an address below all others, and the rest is canonical. -/
theorem Memory.wf_cons {c : Host.Cell} {m : Memory} (h : Memory.wf (c :: m)) :
    c.1 < 65536 ∧ c.2 ≠ unlistedByte ∧ (∀ d ∈ m, c.1 < d.1) ∧ m.wf := by
  obtain ⟨hrise, hcells⟩ := h
  obtain ⟨hc, hm⟩ := List.pairwise_cons.mp hrise
  obtain ⟨hlt, hne⟩ := hcells c List.mem_cons_self
  exact ⟨hlt, hne, hc, hm, fun d hd => hcells d (List.mem_cons_of_mem c hd)⟩

theorem Memory.lookup_cons_self (c : Host.Cell) (m : Memory) : Memory.lookup (c :: m) c.1 = c.2 := if_pos rfl

theorem Memory.lookup_cons_ne {c : Host.Cell} {k : Nat} (h : c.1 ≠ k) (m : Memory) : Memory.lookup (c :: m) k = m.lookup k :=
  if_neg h

/-- A memory that lists nothing up to the address of another's first cell reads differently there. -/
theorem Memory.lookup_ne_of_lt {c : Host.Cell} {m m' : Memory} (h : Memory.wf (c :: m)) (h' : ∀ d ∈ m', c.1 < d.1) :
    Memory.lookup (c :: m) c.1 ≠ m'.lookup c.1 := by
  obtain ⟨-, hne, -, -⟩ := Memory.wf_cons h
  rwa [Memory.lookup_cons_self, Memory.lookup_of_lt h']

/-- Canonical memories with the same byte at every address are the same list: their first cells have the same address and byte. -/
theorem Memory.eq_of_lookup {m m' : Memory} (h : m.wf) (h' : m'.wf) (e : ∀ k < 65536, m.lookup k = m'.lookup k) : m = m' := by
  induction m generalizing m' with
  | nil =>
    cases m' with
    | nil => rfl
    | cons c' m' => exact absurd (e c'.1 (Memory.wf_cons h').1).symm (Memory.lookup_ne_of_lt h' (by simp))
  | cons c m ih =>
    obtain ⟨hlt, -, hc, hm⟩ := Memory.wf_cons h
    cases m' with
    | nil => exact absurd (e c.1 hlt) (Memory.lookup_ne_of_lt h (by simp))
    | cons c' m' =>
      obtain ⟨hlt', -, hc', hm'⟩ := Memory.wf_cons h'
      have below {c c' : Host.Cell} {m' : Memory} (hlt : c.1 < c'.1) (hc' : ∀ d ∈ m', c'.1 < d.1) :
          ∀ d ∈ c' :: m', c.1 < d.1 :=
        List.forall_mem_cons.mpr ⟨hlt, fun d hd => hlt.trans (hc' d hd)⟩
      rcases Nat.lt_trichotomy c.1 c'.1 with lt | eq | gt
      · exact absurd (e c.1 hlt) (Memory.lookup_ne_of_lt h (below lt hc'))
      · have hbyte := e c.1 hlt
        rw [Memory.lookup_cons_self, eq, Memory.lookup_cons_self] at hbyte
        obtain rfl : c = c' := Prod.ext eq hbyte
        refine congrArg (c :: ·) (ih hm hm' fun k hk => ?_)
        by_cases hck : c.1 = k
        · subst hck
          rw [Memory.lookup_of_lt hc, Memory.lookup_of_lt hc']
        · simpa only [Memory.lookup_cons_ne hck] using e k hk
      · exact absurd (e c'.1 hlt').symm (Memory.lookup_ne_of_lt h' (below gt hc))

/-- Settles O39: every address of the 64 KB is read. -/
theorem equalReadsAreEqualMemories : Obligations.EqualReadsAreEqualMemories := by
  intro m m' h h' e
  refine Memory.eq_of_lookup h h' fun k hk => ?_
  have := e (BitVec.ofNat 16 k)
  rwa [Memory.read, Memory.read, BitVec.toNat_ofNat, Nat.mod_eq_of_lt hk] at this

/-! ### The flags register (R20, R26) -/

/-- A flag is set when the AND with its mask is not zero. -/
theorem flagOf_iff_mask (f : FlagsWord) (x : Flag) : flagOf f x = true ↔ f &&& BitVec.twoPow 12 x.bit ≠ 0 := by
  have mask_ne : BitVec.twoPow 12 x.bit ≠ 0 := by cases x <;> decide
  unfold flagOf
  rw [BitVec.and_twoPow]
  split <;> simp_all

/-- Settles O41: the twelve masks are the powers of two of the flags' bits. -/
theorem flagLayout : Obligations.FlagLayout := by
  intro f
  exact ⟨flagOf_iff_mask f .e, flagOf_iff_mask f .a, flagOf_iff_mask f .h, flagOf_iff_mask f .p, flagOf_iff_mask f .z,
    flagOf_iff_mask f .c, flagOf_iff_mask f .i, flagOf_iff_mask f .d, flagOf_iff_mask f .b, flagOf_iff_mask f .o,
    flagOf_iff_mask f .s, flagOf_iff_mask f .t⟩

/-- Settles O42: the image has the same value, and loading keeps the low 12 bits. -/
theorem flagsImageIsZeroExtended : Obligations.FlagsImage := by
  refine ⟨fun f => ⟨?_, flagsOfImage_flagsImage f⟩, fun w => ?_⟩
  · have := f.isLt
    rw [flagsImage, BitVec.toNat_setWidth]
    omega
  · rw [flagsOfImage, BitVec.toNat_setWidth]

/-! ### Byte views (R13, R70) -/

/-- Writing a P register changes no other register. -/
theorem setP_regsSameExcept (s : State) (n : Fin 10) (v : Word) : regsSameExcept [.p n] s (s.setP n v) := by
  intro q hq
  have := stored_writeReg (.p n) q v s
  rwa [if_neg (by simpa using hq)] at this

/-- Settles O43: a word is its two bytes, and a view's write puts one of them together with the other as it was. -/
theorem byteViewsOfAPRegister : Obligations.ByteViewsOfAPRegister := by
  intro s n b
  refine ⟨(wordOf_hi_lo _).symm, ?_, ?_, ?_, ?_, setP_regsSameExcept s n _, setP_regsSameExcept s n _⟩
  all_goals
    simp only [State.setHighByte, State.setLowByte, State.highByte, State.lowByte, State.setP_p_get, if_true, hiByte_wordOf,
      loByte_wordOf]

/-- One byte view is enough to leave the operands without an encoding. -/
theorem encodableOperands_byteView {n : Fin 10} {ops : List AsmOperand} (h : .highByte n ∈ ops ∨ .lowByte n ∈ ops) :
    encodableOperands ops = none := by
  induction ops with
  | nil => simp at h
  | cons o ops ih =>
    cases o with
    | operand o => simp [encodableOperands, ih (by simpa using h)]
    | highByte k => rfl
    | lowByte k => rfl

/-- Settles O44: the operands are looked at before the form. -/
theorem byteViewsAreNotEncodable : Obligations.ByteViewsAreNotEncodable := by
  intro cfg line n h
  simp only [transcribe, encodableOperands_byteView h]

end Sys2Proof.Machine
end

section
/-! MOV (spec/40_move.md R90 to R93, spec/30_encoding.md R67). -/

namespace Sys2Proof.Machine

/-- Settles O20: each form is its base and offset, extended to 16 bits. -/
theorem effectiveAddressOfEachForm : Obligations.EffectiveAddressOfEachForm := by
  intro s
  refine ⟨fun _ => rfl, fun _ => rfl, fun _ => rfl, fun h n o => ?_, fun h n o => ?_⟩
  all_goals
    simp only [effectiveAddress, extendOffset, h]
    exact ⟨rfl, rfl⟩

/-- Settles O24: such a pair has no width. -/
theorem movOfAFormNotAdmittedStops : Obligations.MovOfAFormNotAdmittedStops := by
  intro dst src s h
  have width : movWidth dst src = none := by
    rw [← Option.not_isSome_iff_eq_none, movWidth_isSome]
    exact Bool.eq_false_iff.mp h
  simp only [exec, execMov, width]
  rfl

/-! ### To a register -/

/-- MOV to a register moves in the register's width (R91). -/
theorem exec_mov_reg (d : Reg) (src : Operand) (s : State) :
    exec (.mov (.reg d) src) s =
      .next (writeReg d (readOperand d.width src s).1 (readOperand d.width src s).2) := rfl

/-- After draws and a write to a register: the value cut to the register's width there, and nothing else changed. -/
theorem writeReg_afterDraws (d : Reg) (v : Word) (n : Nat) (s : State) :
    (writeReg d v (s.afterDraws n)).stored d = fit d.width v ∧ (writeReg d v (s.afterDraws n)).draws = s.draws + n ∧
    regsSameExcept [d] s (writeReg d v (s.afterDraws n)) ∧ (writeReg d v (s.afterDraws n)).pc = s.pc ∧
    (writeReg d v (s.afterDraws n)).f = s.f ∧ nothingStored s (writeReg d v (s.afterDraws n)) ∧
    outsideSame s (writeReg d v (s.afterDraws n)) := by
  refine ⟨by rw [stored_writeReg, if_pos rfl], by simp, fun q hq => ?_, by simp, by simp, by simp [nothingStored],
    by simp [outsideSame]⟩
  rw [stored_writeReg, if_neg (by simpa using hq), afterDraws_stored]

theorem readOperand_reg (w : Width) (q : Reg) (s : State) :
    readOperand w (.reg q) s = (fit w (s.regSeen q), s.afterDraws (regDraws q)) := by
  simp only [readOperand, readReg_eq]

/-- A byte fits every width: zero-extended, it is its own low byte (R92, D12). -/
@[simp] theorem fit_zextByte (w : Width) (b : Byte) : fit w (zextByte b) = zextByte b := by
  cases w with
  | byte => rw [fit, loByte_zextByte]
  | word => rfl

/-- Settles O21: the value read, cut to the destination's width, is what the destination holds. -/
theorem movToRegisterFromRegisterOrImmediate : Obligations.MovToRegisterFromRegisterOrImmediate := by
  intro d s
  refine ⟨fun q => ?_, fun v => ?_, fun v => ?_⟩
  · obtain ⟨value, draws, regs, pc, f, stores, outside⟩ :=
      writeReg_afterDraws d (fit d.width (s.regSeen q)) (regDraws q) s
    rw [fit_fit] at value
    refine ⟨_, by rw [exec_mov_reg, readOperand_reg], fun hw => ?_, fun hw => ?_, regs, pc, f, stores, outside, draws⟩
    · rw [value, hw]
      rfl
    · rw [value, hw, fit_eq, if_pos rfl]
      rfl
  · obtain ⟨value, draws, regs, pc, f, stores, outside⟩ := writeReg_afterDraws d (fit d.width (zextByte v)) 0 s
    exact ⟨_, exec_mov_reg d (.imm8 v) s, value.trans (by rw [fit_fit, fit_zextByte]; rfl), regs, pc, f, stores, outside,
      draws⟩
  · obtain ⟨value, draws, regs, pc, f, stores, outside⟩ := writeReg_afterDraws d (fit d.width v) 0 s
    exact ⟨_, exec_mov_reg d (.imm16 v) s, value.trans (by rw [fit_fit, fit_eq]), regs, pc, f, stores, outside, draws⟩

theorem readSized_byte (a : Word) (s : State) :
    readSized .byte a s = (zextByte (s.byteSeen a 0), s.afterDraws (s.ioCount a)) := by
  simp only [readSized, readByte_eq]

theorem readSized_word (a : Word) (s : State) : readSized .word a s = (s.wordSeen a, s.afterDraws (s.wordDraws a)) :=
  readWord_eq a s

/-- Settles O22: the width of the destination says whether a byte or a word is read. -/
theorem movToRegisterFromMemory : Obligations.MovToRegisterFromMemory := by
  intro d m s
  cases hw : d.width with
  | byte =>
    obtain ⟨value, draws, frame⟩ :=
      writeReg_afterDraws d (zextByte (s.byteSeen (effectiveAddress m s) 0)) (s.ioCount (effectiveAddress m s)) s
    rw [fit_zextByte] at value
    refine ⟨_, by rw [exec_mov_reg, hw, readOperand, readSized_byte], fun _ => ⟨value, draws⟩, fun h => (by cases h), frame⟩
  | word =>
    obtain ⟨value, draws, frame⟩ :=
      writeReg_afterDraws d (s.wordSeen (effectiveAddress m s)) (s.wordDraws (effectiveAddress m s)) s
    rw [hw] at value
    refine ⟨_, by rw [exec_mov_reg, hw, readOperand, readSized_word], fun h => (by cases h), fun _ => ⟨value, draws⟩, frame⟩

/-! ### To memory -/

/-- What a store of a width leaves alone, after draws. -/
theorem writeSized_afterDraws_frame (w : Width) (a v : Word) (n : Nat) (s : State) :
    regsSameExcept [] s ((writeSized w a v s).afterDraws n) ∧ ((writeSized w a v s).afterDraws n).pc = s.pc ∧
    ((writeSized w a v s).afterDraws n).f = s.f ∧ outsideSame s ((writeSized w a v s).afterDraws n) ∧
    ((writeSized w a v s).afterDraws n).draws = s.draws + n := by
  obtain ⟨outside, f, pc, regs⟩ := writeSized_frame w a v s
  refine ⟨fun q _ => (afterDraws_stored ..).trans (regs q), pc, f, outside, ?_⟩
  cases w <;> simp [writeSized]

theorem writeSized_afterDraws (w : Width) (a v : Word) (s : State) (n : Nat) :
    writeSized w a v (s.afterDraws n) = (writeSized w a v s).afterDraws n := by
  cases w <;> simp [writeSized]

theorem exec_mov_mem_reg (m : MemRef) (q : Reg) (s : State) :
    exec (.mov (.mem m) (.reg q)) s =
      .next ((writeSized q.width (effectiveAddress m s) (fit q.width (s.regSeen q)) s).afterDraws (regDraws q)) := by
  simp only [exec, execMov, movWidth, readOperand_reg, writeOperand, effectiveAddress_afterDraws, writeSized_afterDraws]

theorem exec_mov_mem_imm8 (m : MemRef) (v : Byte) (s : State) :
    exec (.mov (.mem m) (.imm8 v)) s = .next ((writeSized .byte (effectiveAddress m s) (zextByte v) s).afterDraws 0) := by
  simp only [exec, execMov, movWidth, readOperand, writeOperand, fit_zextByte, afterDraws_zero]

theorem writeSized_byte_stored_at (a v : Word) (n : Nat) (s : State) :
    byteStored s ((writeSized .byte a v s).afterDraws n) a (loByte v) := writeByte_stored_at a (loByte v) s

/-- TT is a 16-bit register (R68), so a read of an 8-bit register is no draw. -/
theorem regSeen_of_byte {q : Reg} (h : q.width = .byte) (s : State) : s.regSeen q = s.stored q := by
  refine if_neg ?_
  rintro rfl
  cases h

/-- Settles O23: the width is the register's, or that of the immediate. -/
theorem movToMemory : Obligations.MovToMemory := by
  intro m s
  refine ⟨fun q => ?_, fun v => ?_, fun v => ?_⟩
  · refine ⟨_, exec_mov_mem_reg m q s, fun hw => ?_, fun hw => ?_, writeSized_afterDraws_frame ..⟩
    · rw [hw, regSeen_of_byte hw, fit, ← loByte_eq]
      have stored := writeSized_byte_stored_at (effectiveAddress m s) (zextByte (loByte (s.stored q))) (regDraws q) s
      rwa [loByte_zextByte] at stored
    · rw [hw]
      exact writeWord_stored_at ..
  · refine ⟨_, exec_mov_mem_imm8 m v s, ?_, writeSized_afterDraws_frame .byte _ (zextByte v) 0 s⟩
    have stored := writeSized_byte_stored_at (effectiveAddress m s) (zextByte v) 0 s
    rwa [loByte_zextByte] at stored
  · exact ⟨_, rfl, writeWord_stored_at .., writeSized_afterDraws_frame .word _ _ 0 s⟩

end Sys2Proof.Machine
end

section
/-! Single stack instructions, CALL, RET, INT and IRET (spec/41_stack.md R102, R103, R106, R107, spec/42_call_int.md R120 to R123). -/

namespace Sys2Proof.Machine

/-! ### Pushes -/

/-- All that a push of a word does (R100). -/
theorem push16_result (v : Word) (s : State) :
    (push16 v s).sp = s.sp - 2 ∧ wordStored s (push16 v s) (s.sp - 2) v ∧ regsSameExcept [.sp] s (push16 v s) ∧
    (push16 v s).pc = s.pc ∧ (push16 v s).f = s.f ∧ outsideSame s (push16 v s) ∧ (push16 v s).draws = s.draws := by
  refine ⟨push16_sp v s, push16_stored_at v s, fun q hq => ?_, push16_pc v s, push16_f v s, by simp [outsideSame],
    push16_draws v s⟩
  rw [push16_stored, if_neg (by simpa using hq)]

/-- Settles O29: the image of F is pushed. -/
theorem pushfResult : Obligations.PushfResult := fun s => ⟨_, rfl, push16_result (flagsImage s.f) s⟩

/-- Settles O31: PC is pushed, then loaded. -/
theorem callResult : Obligations.CallResult := by
  intro target s
  obtain ⟨sp, stored, regs, -, f, outside, draws⟩ := push16_result s.pc s
  exact ⟨_, rfl, rfl, sp, stored, fun q hq => (State.setPc_stored ..).trans (regs q hq), f, outside, draws⟩

/-- PUSH reads its register after the decrement, which SP alone sees (R102). -/
theorem regSeen_setSp (r : Reg) (v : Word) (s : State) : (s.setP 8 v).regSeen r = if r = .sp then v else s.regSeen r := by
  unfold State.regSeen
  rw [stored_setSp, State.setP_draws]
  by_cases h : r = .sp
  · subst h
    rfl
  · rw [if_neg h, if_neg h]

/-- Settles O25: the register is read after the decrement. -/
theorem pushResult : Obligations.PushResult := by
  intro r s
  have stored := pushReg_stored_at r s
  rw [regSeen_setSp] at stored
  refine ⟨_, rfl, pushReg_sp r s, stored, fun q hq => ?_, pushReg_pc r s, pushReg_f r s, by simp [outsideSame],
    pushReg_draws r s⟩
  rw [pushReg_stored, if_neg (by simpa using hq)]

/-! ### Pops -/

/-- Settles O26: SP is written last, so a popped SP is the entry plus 2 (R103). -/
theorem popResult : Obligations.PopResult := by
  intro r s
  have value (h : r ≠ .sp) : (popReg r s).stored r = fit r.width (s.wordSeen s.sp) := by
    rw [popReg_eq, stored_setSp, if_neg h, stored_writeReg, if_pos rfl]
  have sp : (popReg r s).sp = (if r = .sp then s.wordSeen s.sp else s.sp) + 2 := by rw [popReg_eq, setP_sp]
  refine ⟨_, rfl, fun h => by rw [sp, if_pos h], fun h => ⟨by rw [sp, if_neg h], fun hw => ?_, fun hw => ?_⟩, fun q hq => ?_,
    popReg_pc r s, popReg_f r s, ⟨popReg_mem r s, popReg_deviceWrites r s⟩, by simp [outsideSame], by simp [popReg_eq]⟩
  · rw [value h, hw]
    rfl
  · rw [value h, hw, fit_eq, if_pos rfl]
  · simp only [List.mem_cons, List.not_mem_nil, or_false, not_or] at hq
    rw [popReg_eq, stored_setSp, if_neg hq.2, stored_writeReg, if_neg hq.1, afterDraws_stored]

/-- What popping the flags leaves alone. -/
theorem popFlags_frame (s : State) :
    regsSameExcept [.sp] s (popFlags s) ∧ nothingStored s (popFlags s) ∧ outsideSame s (popFlags s) := by
  refine ⟨fun q hq => ?_, ⟨popFlags_mem s, popFlags_deviceWrites s⟩, by simp [outsideSame]⟩
  rw [popFlags_stored, if_neg (by simpa using hq)]

/-- What popping PC leaves alone. -/
theorem popPc_frame (s : State) :
    regsSameExcept [.sp] s (popPc s) ∧ nothingStored s (popPc s) ∧ outsideSame s (popPc s) := by
  refine ⟨fun q hq => ?_, ⟨popPc_mem s, popPc_deviceWrites s⟩, by simp [outsideSame]⟩
  rw [popPc_stored, if_neg (by simpa using hq)]

theorem popFlags_f (s : State) : (popFlags s).f = flagsOfImage (s.wordSeen s.sp) := by
  rw [popFlags_eq, State.setF_f]

theorem popPc_pc (s : State) : (popPc s).pc = s.wordSeen s.sp := by
  rw [popPc_eq, State.setPc_pc]

@[simp] theorem popFlags_draws (s : State) : (popFlags s).draws = s.draws + s.wordDraws s.sp := by simp [popFlags_eq]

@[simp] theorem popPc_draws (s : State) : (popPc s).draws = s.draws + s.wordDraws s.sp := by simp [popPc_eq]

/-- Settles O30: the entry seen at SP is loaded into F. -/
theorem popfResult : Obligations.PopfResult := by
  intro s
  obtain ⟨regs, stores, outside⟩ := popFlags_frame s
  exact ⟨_, rfl, popFlags_f s, popFlags_sp s, regs, popFlags_pc s, stores, outside, popFlags_draws s⟩

/-- Settles O32: the entry seen at SP is loaded into PC. -/
theorem retResult : Obligations.RetResult := by
  intro s
  obtain ⟨regs, stores, outside⟩ := popPc_frame s
  exact ⟨_, rfl, popPc_pc s, popPc_sp s, regs, popPc_f s, stores, outside, popPc_draws s⟩

theorem regsSameExcept.trans {ds : List Reg} {s t u : State} (h : regsSameExcept ds s t) (k : regsSameExcept ds t u) :
    regsSameExcept ds s u := fun q hq => (k q hq).trans (h q hq)

theorem nothingStored.trans {s t u : State} (h : nothingStored s t) (k : nothingStored t u) : nothingStored s u :=
  ⟨k.1.trans h.1, k.2.trans h.2⟩

/-- After the flags are popped a read sees what it would have seen after the draws of that pop. -/
theorem popFlags_wordSeen (s : State) (a : Word) :
    (popFlags s).wordSeen a = (s.afterDraws (s.wordDraws s.sp)).wordSeen a ∧ (popFlags s).wordDraws a = s.wordDraws a := by
  rw [popFlags_eq]
  exact ⟨rfl, rfl⟩

/-- Settles O35: F is popped, then PC from the entry above it. -/
theorem iretResult : Obligations.IretResult := by
  intro s
  obtain ⟨regsF, storesF, outsideF⟩ := popFlags_frame s
  obtain ⟨regsP, storesP, outsideP⟩ := popPc_frame (popFlags s)
  obtain ⟨seen, draws⟩ := popFlags_wordSeen s (s.sp + 2)
  refine ⟨returnFromHandler s, rfl, ?_, ?_, ?_, regsF.trans regsP, storesF.trans storesP, outsideF.trans outsideP, ?_⟩
  · rw [returnFromHandler, popPc_f, popFlags_f]
    rfl
  · rw [returnFromHandler, popPc_pc, popFlags_sp, seen]
  · rw [returnFromHandler, popPc_sp, popFlags_sp, BitVec.add_assoc]
    rfl
  · rw [returnFromHandler, popPc_draws, popFlags_draws, popFlags_sp, draws]

/-! ### Software interrupts -/

/-- INT with a vector number enters that vector's handler. -/
theorem exec_int (v : Vec) (s : State) : exec (.int (BitVec.ofNat 8 v.val)) s = .next (enterHandler v s) := by
  have number : (BitVec.ofNat 8 v.val).toNat = v.val := by
    rw [BitVec.toNat_ofNat]
    omega
  simp only [exec, execInt, number, v.isLt, dite_true]

/-- Settles O33: what INT does is handler entry. -/
theorem intResult : Obligations.IntResult := fun v s => ⟨_, exec_int v s, enterHandler_entered v s, enterHandler_irq v s⟩

/-- Settles O34: INT is 3 bytes long (R122). -/
theorem intAboveSevenStops : Obligations.IntAboveSevenStops := by
  intro n s h
  simp only [exec, execInt, dif_neg (Nat.not_lt.mpr h)]
  rfl

end Sys2Proof.Machine
end

section
/-! PUSHA and POPA (spec/41_stack.md R104, R105): the frame, and that the one undoes the other. -/

namespace Sys2Proof.Machine

/-! ### PUSHA -/

/-- The state after PUSHA. -/
abbrev afterPusha (s : State) : State := pushFlags (pushRegs pushaOrder s)

theorem pushaOrder_without_tt : .tt ∉ pushaOrder := by decide

theorem pushRegs_pusha_sp (s : State) : (pushRegs pushaOrder s).sp = s.sp - BitVec.ofNat 16 40 :=
  (pushRegs_fields pushaOrder s pushaOrder_without_tt).1

/-- The flags are the frame's lowest entry. -/
theorem afterPusha_stored_at (s : State) :
    wordStored (pushRegs pushaOrder s) (afterPusha s) (s.sp - BitVec.ofNat 16 42) (flagsImage s.f) := by
  obtain ⟨sp, -, -, f, -, -⟩ := pushRegs_fields pushaOrder s pushaOrder_without_tt
  have stored := pushFlags_stored_at (pushRegs pushaOrder s)
  rwa [f, pushRegs_pusha_sp, word_sub_two, word_sub_sub] at stored

/-- Bytes outside the frame are left. -/
theorem afterPusha_other {s : State} {x : Word} (h : ¬ touches (s.sp - BitVec.ofNat 16 42) 42 x) :
    (afterPusha s).mem.read x = s.mem.read x := by
  have hx := touches_not h
  rw [wordStored_other (afterPusha_stored_at s) (hx 42 (by omega) (by omega))
    (by rw [word_sub_succ]; exact hx 41 (by omega) (by omega))]
  exact pushRegs_other pushaOrder s x fun j h1 h2 => hx j h1 (by rw [pushaOrder_length] at h2; omega)

/-- Above the flags' entry the frame is as the registers were pushed. -/
theorem afterPusha_above_flags (s : State) (k : Nat) (hk : k < 20) :
    (afterPusha s).ramWord (s.sp - BitVec.ofNat 16 (2 * k + 2)) =
      (pushRegs pushaOrder s).ramWord (s.sp - BitVec.ofNat 16 (2 * k + 2)) := by
  have keep (j : Nat) (hj : j ≤ 40) : (afterPusha s).mem.read (s.sp - BitVec.ofNat 16 j) =
      (pushRegs pushaOrder s).mem.read (s.sp - BitVec.ofNat 16 j) :=
    wordStored_other (afterPusha_stored_at s) (word_sub_ofNat_ne _ (by omega) (by omega))
      (by rw [word_sub_succ]; exact word_sub_ofNat_ne _ (by omega) (by omega))
  rw [State.ramWord, State.ramWord, word_sub_succ, keep _ (by omega), keep _ (by omega)]

/-- With the frame in RAM the entry of each register lies in its place: what the register held, for SP the decremented value. -/
theorem afterPusha_entry {s : State} (ram : s.ramAt (s.sp - BitVec.ofNat 16 42) 42) (k : Nat) (hk : k < pushaOrder.length) :
    (afterPusha s).ramWord (s.sp - BitVec.ofNat 16 (2 * k + 2)) =
      if pushaOrder[k] = .sp then s.sp - BitVec.ofNat 16 (2 * k + 2) else s.stored pushaOrder[k] := by
  rw [afterPusha_above_flags s k hk]
  refine (pushRegs_entry pushaOrder s pushaOrder_without_tt (by decide) fun j h1 h2 => ?_).1 k hk
  exact ramAt_below ram j h1 (by rw [pushaOrder_length] at h2; omega)

/-- With the frame in RAM its lowest entry is the flags', and no device is written. -/
theorem afterPusha_flags {s : State} (ram : s.ramAt (s.sp - BitVec.ofNat 16 42) 42) :
    (afterPusha s).ramWord (s.sp - BitVec.ofNat 16 42) = flagsImage s.f ∧ (afterPusha s).deviceWrites = s.deviceWrites := by
  have lowest : (pushRegs pushaOrder s).ramAt (s.sp - BitVec.ofNat 16 42) 2 := by
    obtain ⟨-, -, -, -, ⟨-, -, -, cfg⟩, -⟩ := pushRegs_fields pushaOrder s pushaOrder_without_tt
    exact ramAt_of_cfg cfg (ramAt_prefix ram 2 (by omega))
  have stored := afterPusha_stored_at s
  refine ⟨wordStored_ramWord stored lowest, (wordStored_ram_devices stored lowest).trans ?_⟩
  exact (pushRegs_entry pushaOrder s pushaOrder_without_tt (by decide) fun j h1 h2 =>
    ramAt_below ram j h1 (by rw [pushaOrder_length] at h2; omega)).2

theorem pushaOrder_r (n : Fin 10) : pushaOrder[n.val]? = some (.r n) := by
  revert n; decide

theorem pushaOrder_p (n : Fin 10) : pushaOrder[10 + n.val]? = some (.p n) := by
  revert n; decide

/-- The entry of a register that is not SP, by its place in the order of PUSHA. -/
theorem afterPusha_entry_of {s : State} (ram : s.ramAt (s.sp - BitVec.ofNat 16 42) 42) {k : Nat} {r : Reg}
    (hr : pushaOrder[k]? = some r) (hsp : r ≠ .sp) :
    (afterPusha s).ramWord (s.sp - BitVec.ofNat 16 (2 * k + 2)) = s.stored r := by
  obtain ⟨hk, rfl⟩ := List.getElem?_eq_some_iff.mp hr
  rw [afterPusha_entry ram k hk, if_neg hsp]

/-- Settles O27: the twenty registers' entries by their place in the order of PUSHA, and the flags' entry below them. -/
theorem pushaResult : Obligations.PushaResult := by
  intro s
  obtain ⟨-, regs, pc, f, outside, draws⟩ := pushRegs_fields pushaOrder s pushaOrder_without_tt
  refine ⟨afterPusha s, rfl, ?_, fun x => afterPusha_other, fun ram => ⟨fun n => ?_, fun n hn => ?_, ?_, afterPusha_flags ram⟩,
    fun q hq => ?_, (pushFlags_pc _).trans pc, (pushFlags_f _).trans f, ?_, (pushFlags_draws _).trans draws⟩
  · rw [pushFlags_sp, pushRegs_pusha_sp, word_sub_two, word_sub_sub]
    rfl
  · have entry := afterPusha_entry_of ram (pushaOrder_r n) (by simp)
    rwa [Nat.add_comm] at entry
  · have entry := afterPusha_entry_of ram (pushaOrder_p n) (by simpa using hn)
    rwa [show 2 * (10 + n.val) + 2 = 22 + 2 * n.val by omega] at entry
  · exact afterPusha_entry ram 18 (by decide)
  · rw [pushFlags_stored, if_neg (by simpa using hq), regs q hq]
  · refine outside.trans ?_
    simp [outsideSame]

/-! ### POPA -/

@[simp] theorem popFlags_ramWord (s : State) (a : Word) : (popFlags s).ramWord a = s.ramWord a := by simp [State.ramWord]

@[simp] theorem popReg_ramWord (r : Reg) (s : State) (a : Word) : (popReg r s).ramWord a = s.ramWord a := by simp [State.ramWord]

/-- POPA up to the new SP: F, P9 and P8 are popped (R105). -/
abbrev popaHead (s : State) : State := popReg (.p 8) (popReg (.p 9) (popFlags s))

/-- With those three entries in RAM the rest is popped from above the entry of P8, and P9 holds its entry. -/
theorem popaHead_ram {s : State} (ram : s.ramAt s.sp 6) :
    (popaHead s).sp = s.ramWord (s.sp + 4) + 2 ∧ (popaHead s).p.get 9 = s.ramWord (s.sp + 2) ∧
    (popaHead s).f = flagsOfImage (s.ramWord s.sp) ∧ (popaHead s).draws = s.draws := by
  have ramF : s.ramAt s.sp 2 := ramAt_prefix ram 2 (by omega)
  have ram9 : (popFlags s).ramAt (popFlags s).sp 2 := by
    rw [popFlags_sp]
    exact ramAt_of_cfg (popFlags_cfg s) (ramAt_part ram 2 2 (by omega))
  have pop9 := popReg_ram (r := .p 9) ram9
  rw [if_neg (by decide), popFlags_sp, popFlags_ramWord, BitVec.add_assoc] at pop9
  have sp9 : (popReg (.p 9) (popFlags s)).sp = s.sp + 4 := by
    rw [pop9, setP_sp]
    rfl
  have ram8 : (popReg (.p 9) (popFlags s)).ramAt (popReg (.p 9) (popFlags s)).sp 2 := by
    rw [sp9]
    exact ramAt_of_cfg (by simp) (ramAt_part ram 4 2 (by omega))
  have pop8 := popReg_ram (r := .p 8) ram8
  rw [if_pos rfl, sp9, popReg_ramWord, popFlags_ramWord] at pop8
  refine ⟨?_, ?_, ?_, ?_⟩
  · rw [popaHead, pop8, setP_sp]
  · rw [popaHead, pop8, pop9]
    simp [writeReg]
  · rw [popaHead, popReg_f, popReg_f, popFlags_ram ramF, State.setF_f]
  · rw [popaHead, pop8, pop9, popFlags_ram ramF]
    simp

theorem popaTail_p (n : Fin 10) (hn : n.val < 8) : popaTail[7 - n.val]? = some (.p n) := by
  revert n; decide

theorem popaTail_r (n : Fin 10) : popaTail[17 - n.val]? = some (.r n) := by
  revert n; decide

/-- With POPA's later entries in RAM each register of them holds its entry, cut to its width, SP is 36 above the place they were read
from, and nothing was drawn. -/
theorem popaTail_ram {s : State} {e : Word} (head : (popaHead s).sp = e + 2) (ram : s.ramAt (e + 2) 36) :
    (popRegs popaTail (popaHead s)).sp = e + 38 ∧ (popRegs popaTail (popaHead s)).draws = (popaHead s).draws ∧
    ∀ (k : Nat) (r : Reg), popaTail[k]? = some r →
      (popRegs popaTail (popaHead s)).stored r = fit r.width (s.ramWord (e + BitVec.ofNat 16 (2 + 2 * k))) := by
  obtain ⟨sp, draws, entry⟩ := popRegs_ram popaTail (popaHead s) (by decide) (by decide) fun j hj => by
    rw [popReg_isIo, popReg_isIo, popFlags_isIo, head]
    exact ram j (List.mem_range.mpr hj)
  refine ⟨?_, draws, fun k r hr => ?_⟩
  · rw [sp, head, BitVec.add_assoc]
    rfl
  · obtain ⟨hk, rfl⟩ := List.getElem?_eq_some_iff.mp hr
    rw [entry k hk, head, word_add_two, word_add_add, popReg_ramWord, popReg_ramWord, popFlags_ramWord]

/-- Settles O28: the head gives the place the rest is read from; what changes is only what POPA pops. -/
theorem popaResult : Obligations.PopaResult := by
  intro s
  have split : popRegs pushaOrder.reverse (popFlags s) = popRegs popaTail (popaHead s) := popRegs_popa _
  refine ⟨popRegs pushaOrder.reverse (popFlags s), rfl, fun ram ram' => ?_, ?_⟩
  · obtain ⟨sp, p9, f, draws⟩ := popaHead_ram ram
    obtain ⟨tailRegs, -, tailF, -, -⟩ := popRegs_frame popaTail (popaHead s)
    obtain ⟨tailSp, tailDraws, entry⟩ := popaTail_ram sp ram'
    rw [split]
    refine ⟨tailF.trans f, (tailRegs (.p 9) (by decide)).trans p9, tailSp, fun n hn => ?_, fun n => ?_, tailDraws.trans draws⟩
    · have entry := entry _ _ (popaTail_p n hn)
      exact entry
    · have entry := entry _ _ (popaTail_r n)
      rw [show 2 + 2 * (17 - n.val) = 18 + 2 * (9 - n.val) by omega] at entry
      exact (zextByte_inj entry).trans (loByte_eq _)
  · obtain ⟨regs, pc, -, stores, outside⟩ := popRegs_frame pushaOrder.reverse (popFlags s)
    obtain ⟨regsF, storesF, outsideF⟩ := popFlags_frame s
    have keep (q : Reg) (hq : q ∉ .sp :: pushaOrder.reverse) :
        (popRegs pushaOrder.reverse (popFlags s)).stored q = s.stored q :=
      (regs q hq).trans (regsF q fun e => hq (List.mem_cons_of_mem _ (by simp_all)))
    exact ⟨zextByte_inj (keep .vx (by decide)), zextByte_inj (keep .vy (by decide)), zextByte_inj (keep .vm (by decide)),
      zextByte_inj (keep .vl (by decide)), keep .tt (by decide), keep .tm (by decide), zextByte_inj (keep .tc (by decide)),
      zextByte_inj (keep .ts (by decide)), pc.trans (popFlags_pc s), storesF.trans stores, outsideF.trans outside⟩

end Sys2Proof.Machine
end

section
/-! What an instruction may change (spec/10_state.md sections 1 and 3, spec/20_memory.md section 5), and how a step can stop
(spec/60_exceptions.md section 1). -/

namespace Sys2Proof.Machine

/-! ### The flags -/

theorem writeOperand_f (w : Width) (dst : Operand) (v : Word) (s : State) : (writeOperand w dst v s).f = s.f := by
  cases dst with
  | reg d => exact writeReg_f d v s
  | mem m =>
    obtain ⟨-, f, -, -⟩ := writeSized_frame w (effectiveAddress m s) v s
    exact f
  | imm8 _ => rfl
  | imm16 _ => rfl

/-- INT's next state: a handler has been entered. -/
theorem exec_int_next {n : Byte} {s t : State} (h : exec (.int n) s = .next t) : ∃ v, t = enterHandler v s := by
  simp only [exec, execInt] at h
  split at h
  · exact ⟨_, (Host.Outcome.next.inj h).symm⟩
  · cases h

/-- Only POPF, POPA and IRET load F, and INT alone clears I (R21). -/
theorem exec_f {i : Instr} {s t : State} (h : exec i s = .next t) (popf : i ≠ .popf) (popa : i ≠ .popa) (iret : i ≠ .iret) :
    t.f = s.f ∨ (∃ n, i = .int n) ∧ t.f = clearI s.f := by
  cases i with
  | mov dst src =>
    obtain ⟨w, v, n, -, -, rfl⟩ := execMov_next h
    exact .inl (writeOperand_f w dst v (s.afterDraws n))
  | push r => obtain rfl := Host.Outcome.next.inj h; exact .inl (pushReg_f r s)
  | pop r => obtain rfl := Host.Outcome.next.inj h; exact .inl (popReg_f r s)
  | pusha =>
    obtain rfl := Host.Outcome.next.inj h
    obtain ⟨-, -, -, f, -, -⟩ := pushRegs_fields pushaOrder s pushaOrder_without_tt
    exact .inl ((pushFlags_f _).trans f)
  | pushf => obtain rfl := Host.Outcome.next.inj h; exact .inl (pushFlags_f s)
  | call a => obtain rfl := Host.Outcome.next.inj h; exact .inl (pushPc_f s)
  | ret => obtain rfl := Host.Outcome.next.inj h; exact .inl (popPc_f s)
  | int n =>
    obtain ⟨v, rfl⟩ := exec_int_next h
    exact .inr ⟨⟨n, rfl⟩, enterHandler_f v s⟩
  | popf => exact absurd rfl popf
  | popa => exact absurd rfl popa
  | iret => exact absurd rfl iret

/-- Settles O49: I is the one flag INT clears. -/
theorem flagsChangeOnlyWhereTheSpecSays : Obligations.FlagsChangeOnlyWhereTheSpecSays := by
  intro i s t h popf popa iret
  rcases exec_f h popf popa iret with same | ⟨⟨n, int⟩, cleared⟩
  · exact ⟨fun x _ => by rw [same], fun _ => same⟩
  · exact ⟨fun x hx => by rw [cleared, flagOf_clearI, if_neg hx], fun no => absurd int (no n)⟩

/-! ### The registers -/

theorem writeOperand_stored {w : Width} {dst : Operand} {q : Reg} (h : dst ≠ .reg q) (v : Word) (s : State) :
    (writeOperand w dst v s).stored q = s.stored q := by
  cases dst with
  | reg d =>
    have hne : q ≠ d := by
      rintro rfl
      exact h rfl
    rw [writeOperand, stored_writeReg, if_neg hne]
  | mem m =>
    obtain ⟨-, -, -, regs⟩ := writeSized_frame w (effectiveAddress m s) v s
    exact regs q
  | imm8 _ => rfl
  | imm16 _ => rfl

theorem mov_destination {dst src : Operand} {q : Reg} (h : q ∉ destinations (.mov dst src)) : dst ≠ .reg q := by
  rintro rfl
  exact h (List.mem_singleton.mpr rfl)

/-- Settles O50: a stack instruction's SP apart, what is written is the destination. -/
theorem registersChangeOnlyAsDestinations : Obligations.RegistersChangeOnlyAsDestinations := by
  intro i s t q h hq hsp
  have notSp (stack : usesStack i = true) : q ≠ .sp := fun e => by simp [hsp e] at stack
  cases i with
  | mov dst src =>
    obtain ⟨w, v, n, -, -, rfl⟩ := execMov_next h
    exact (writeOperand_stored (mov_destination hq) v _).trans (afterDraws_stored s n q)
  | push r => obtain rfl := Host.Outcome.next.inj h; rw [pushReg_stored, if_neg (notSp rfl)]
  | pop r =>
    obtain rfl := Host.Outcome.next.inj h
    rw [popReg_eq, stored_setSp, if_neg (notSp rfl), stored_writeReg, if_neg (by simpa [destinations] using hq),
      afterDraws_stored]
  | pusha =>
    obtain rfl := Host.Outcome.next.inj h
    obtain ⟨-, regs, -⟩ := pushRegs_fields pushaOrder s pushaOrder_without_tt
    rw [pushFlags_stored, if_neg (notSp rfl), regs q (by simpa using notSp rfl)]
  | popa =>
    obtain rfl := Host.Outcome.next.inj h
    obtain ⟨regs, -⟩ := popRegs_frame pushaOrder.reverse (popFlags s)
    have other : q ∉ .sp :: pushaOrder.reverse := by simpa using ⟨notSp rfl, by simpa [destinations] using hq⟩
    rw [regs q other, popFlags_stored, if_neg (notSp rfl)]
  | pushf => obtain rfl := Host.Outcome.next.inj h; rw [pushFlags_stored, if_neg (notSp rfl)]
  | popf => obtain rfl := Host.Outcome.next.inj h; rw [popFlags_stored, if_neg (notSp rfl)]
  | call a => obtain rfl := Host.Outcome.next.inj h; rw [State.setPc_stored, pushPc_stored, if_neg (notSp rfl)]
  | ret => obtain rfl := Host.Outcome.next.inj h; rw [popPc_stored, if_neg (notSp rfl)]
  | int n =>
    obtain ⟨v, rfl⟩ := exec_int_next h
    exact enterHandler_stored v s q (notSp rfl)
  | iret =>
    obtain rfl := Host.Outcome.next.inj h
    rw [returnFromHandler, popPc_stored, if_neg (notSp rfl), popFlags_stored, if_neg (notSp rfl)]

/-! ### Memory -/

theorem touches_first {a : Word} {n : Nat} (h : 0 < n) : touches a n a := ⟨0, List.mem_range.mpr h, by simp⟩

theorem touches_second {a : Word} {n : Nat} (h : 1 < n) : touches a n (a + 1) := ⟨1, List.mem_range.mpr h, rfl⟩

/-- A stored word changes only the two bytes it touches. -/
theorem wordStored_untouched {s t : State} {a v x : Word} (h : wordStored s t a v) (hx : ¬ touches a 2 x) :
    t.mem.read x = s.mem.read x := by
  refine wordStored_other h ?_ ?_
  · rintro rfl
    exact hx (touches_first (by omega))
  · rintro rfl
    exact hx (touches_second (by omega))

/-- A store of a width changes only the bytes it touches. -/
theorem writeSized_untouched {w : Width} {a v x : Word} {s : State} (hx : ¬ touches a (widthBytes w) x) :
    (writeSized w a v s).mem.read x = s.mem.read x := by
  cases w with
  | byte =>
    refine byteStored_other (writeByte_stored_at a (loByte v) s) ?_
    rintro rfl
    exact hx (touches_first (by decide))
  | word => exact wordStored_untouched (writeWord_stored_at a v s) hx

/-- MOV to memory stores at the effective address as many bytes as the move is wide (R91). -/
theorem storeRange_mov_mem {m : MemRef} {src : Operand} {w : Width} (h : movWidth (.mem m) src = some w) (s : State) :
    storeRange (.mov (.mem m) src) s = (effectiveAddress m s, widthBytes w) := by
  cases src <;> cases h <;> rfl

/-- Settles O51: instruction by instruction, what is stored lies in the range, and most store nothing. -/
theorem memoryChangesOnlyAtTheStoredBytes : Obligations.MemoryChangesOnlyAtTheStoredBytes := by
  intro i s t x h hx
  cases i with
  | mov dst src =>
    obtain ⟨w, v, n, hw, -, rfl⟩ := execMov_next h
    cases dst with
    | reg d => rw [writeOperand, writeReg_mem, afterDraws_mem]
    | mem m =>
      rw [storeRange_mov_mem hw] at hx
      rw [writeOperand, effectiveAddress_afterDraws, writeSized_afterDraws, afterDraws_mem]
      exact writeSized_untouched hx
    | imm8 _ => rfl
    | imm16 _ => rfl
  | push r => obtain rfl := Host.Outcome.next.inj h; exact wordStored_untouched (pushReg_stored_at r s) hx
  | pop r => obtain rfl := Host.Outcome.next.inj h; rw [popReg_mem]
  | pusha => obtain rfl := Host.Outcome.next.inj h; exact afterPusha_other hx
  | popa =>
    obtain rfl := Host.Outcome.next.inj h
    obtain ⟨-, -, -, ⟨hmem, -⟩, -⟩ := popRegs_frame pushaOrder.reverse (popFlags s)
    rw [hmem, popFlags_mem]
  | pushf => obtain rfl := Host.Outcome.next.inj h; exact wordStored_untouched (pushFlags_stored_at s) hx
  | popf => obtain rfl := Host.Outcome.next.inj h; rw [popFlags_mem]
  | call a => obtain rfl := Host.Outcome.next.inj h; exact wordStored_untouched (pushPc_stored_at s) hx
  | ret => obtain rfl := Host.Outcome.next.inj h; rw [popPc_mem]
  | int n =>
    obtain ⟨v, rfl⟩ := exec_int_next h
    rw [enterHandler_mem]
    exact handlerPushed_other hx
  | iret => obtain rfl := Host.Outcome.next.inj h; rw [returnFromHandler, popPc_mem, popFlags_mem]

/-! ### How a step can stop -/

/-- A well-formed instruction goes on, or is INT with a number above 7 and stops with its own address. -/
theorem exec_next_or_illegalVector {i : Instr} (wf : i.WellFormed = true) (s : State) :
    (∃ t, exec i s = .next t) ∨ ∃ n : Byte, 8 ≤ n.toNat ∧ exec i s = .fault (.illegalVector (addressOf i s) n) := by
  cases i with
  | mov dst src =>
    obtain ⟨w, -, h⟩ := execMov_admitted wf s
    exact .inl ⟨_, h⟩
  | int n =>
    by_cases hn : n.toNat < 8
    · exact .inl ⟨_, dif_pos hn⟩
    · exact .inr ⟨n, by omega, dif_neg hn⟩
  | _ => exact .inl ⟨_, rfl⟩

/-- The address of the fetched instruction is the PC it was fetched from. -/
theorem addressOf_fetched {s s1 : State} {i : Instr} (h : fetch s = some (i, s1)) : addressOf i s1 = s.pc := by
  obtain ⟨-, e⟩ := fetchAdvancesPastTheInstruction s s1 i h
  rw [e, addressOf, BitVec.add_sub_cancel]

/-- Settles O52: an interrupt goes on, bytes that are no instruction stop, and what is fetched is well-formed. -/
theorem stepsAndTheirOnlyStops : Obligations.StepsAndTheirOnlyStops := by
  intro s
  cases accepted : acceptedVector (devicesMove s) with
  | some v => exact .inl ⟨_, acceptedInterruptIsTaken s v accepted⟩
  | none =>
    rw [step_of_not_accepted accepted]
    cases fetched : fetch (devicesMove s) with
    | none => exact .inr (.inl (runInstruction_of_fetch_none fetched))
    | some f =>
      obtain ⟨i, s1⟩ := f
      obtain ⟨wf, -⟩ := fetchAdvancesPastTheInstruction _ _ _ fetched
      rw [runInstruction_of_fetch fetched, ← addressOf_fetched fetched]
      exact (exec_next_or_illegalVector wf s1).imp_right .inr

end Sys2Proof.Machine
end

section
/-! What undoes what: POP after PUSH, POPF after PUSHF, RET after CALL, IRET after handler entry, POPA after PUSHA
(spec/41_stack.md section 3, spec/42_call_int.md, spec/60_exceptions.md section 6). The PC an instruction runs with is the one its own fetch left. -/

namespace Sys2Proof.Machine

/-- A word pushed in RAM is the word a pop sees, whatever PC is then. -/
theorem pushed_word_on_top {s t : State} {v : Word} (pc : Word) (stored : wordStored s t (s.sp - 2) v) (sp : t.sp = s.sp - 2)
    (cfg : t.cfg = s.cfg) (ram : s.ramAt (s.sp - 2) 2) :
    (t.setPc pc).ramAt (t.setPc pc).sp 2 ∧ (t.setPc pc).ramWord (t.setPc pc).sp = v := by
  rw [State.setPc_sp, State.setPc_ramWord, sp]
  exact ⟨ramAt_of_cfg cfg ram, wordStored_ramWord stored ram⟩

/-- POP of the register just pushed restores every register. -/
theorem pop_after_push {s : State} {r : Reg} (pc : Word) (ram : s.ramAt (s.sp - 2) 2) (htt : r ≠ .tt) :
    regsSameExcept [] s (popReg r ((pushReg r s).setPc pc)) := by
  obtain ⟨ram', top⟩ := pushed_word_on_top pc (pushReg_stored_at r s) (pushReg_sp r s) (pushReg_cfg r s) ram
  have seen : s.regSeen r = s.stored r := if_neg htt
  rw [popReg_ram ram', top, State.setPc_sp, pushReg_sp, regSeen_setSp, seen]
  intro q _
  rw [stored_setSp]
  by_cases hsp : q = .sp
  · subst hsp
    rw [if_pos rfl]
    split <;> exact BitVec.sub_add_cancel ..
  · rw [if_neg hsp, stored_writeReg, State.setPc_stored, pushReg_stored, if_neg hsp]
    by_cases hq : q = r
    · subst hq
      rw [if_pos rfl, if_neg hsp, fit_stored]
    · rw [if_neg hq]

/-- A register file with SP lowered by 2 and raised again is as it was. -/
theorem regs_restored {s t u : State} (down : ∀ q, t.stored q = if q = .sp then s.sp - 2 else s.stored q)
    (up : ∀ q, u.stored q = if q = .sp then t.sp + 2 else t.stored q) : regsSameExcept [] s u := by
  intro q _
  rw [up]
  split
  case isTrue h =>
    have sp : t.sp = s.sp - 2 := down .sp
    rw [h, sp]
    exact BitVec.sub_add_cancel ..
  case isFalse h => rw [down, if_neg h]

/-- Settles O53: the word pushed is the word popped. -/
theorem pushThenPopRestores : Obligations.PushThenPopRestores := by
  intro s pc ram
  refine ⟨fun r htt => ⟨_, _, rfl, rfl, pop_after_push pc ram htt, ?_⟩, _, _, rfl, rfl, ?_, ?_⟩
  · rw [popReg_f, State.setPc_f, pushReg_f]
  · exact regs_restored (t := (pushFlags s).setPc pc) (fun q => (State.setPc_stored ..).trans (pushFlags_stored s q))
      (popFlags_stored _)
  · obtain ⟨ram', top⟩ := pushed_word_on_top pc (pushFlags_stored_at s) (pushFlags_sp s) (pushFlags_cfg s) ram
    rw [popFlags_ram ram', State.setF_f, top, flagsOfImage_flagsImage]

/-- Settles O55: the PC pushed is the PC popped. -/
theorem retUndoesCall : Obligations.RetUndoesCall := by
  intro s target pc ram
  have down (q : Reg) : (((pushPc s).setPc target).setPc pc).stored q = if q = .sp then s.sp - 2 else s.stored q := by
    rw [State.setPc_stored, State.setPc_stored, pushPc_stored]
  refine ⟨_, _, rfl, rfl, ?_, regs_restored down (popPc_stored _), ?_⟩
  · obtain ⟨ram', top⟩ := pushed_word_on_top (t := (pushPc s).setPc target) pc (pushPc_stored_at s) (pushPc_sp s) (pushPc_cfg s) ram
    rw [popPc_ram ram', State.setPc_pc, top]
  · rw [popPc_f, State.setPc_f, State.setPc_f, pushPc_f]

/-- A return from a handler that was entered, with the stack in RAM and as entry left it. -/
theorem return_undoes_entry {s t : State} {v : Vec} (pc : Word) (entered : handlerEntered s t v) (ram : s.ramAt (s.sp - 4) 4) :
    (returnFromHandler (t.setPc pc)).pc = s.pc ∧ (returnFromHandler (t.setPc pc)).f = s.f ∧
    regsSameExcept [] s (returnFromHandler (t.setPc pc)) := by
  obtain ⟨sp, regs, -, -, stack, -, -, -, -, cfg⟩ := entered
  obtain ⟨oldPc, oldF, -⟩ := stack ram
  have ram' : (t.setPc pc).ramAt (t.setPc pc).sp 4 := by
    rw [State.setPc_sp, sp]
    exact ramAt_of_cfg cfg ram
  obtain ⟨f, pc', sp', regs'⟩ := returnFromHandler_ram ram'
  simp only [State.setPc_sp, State.setPc_ramWord, State.setPc_stored, sp] at f pc' sp' regs'
  refine ⟨?_, ?_, fun q _ => ?_⟩
  · rw [pc', ← oldPc]
    congr 1
    bv_omega
  · rw [f, oldF]
    exact flagsOfImage_flagsImage s.f
  · by_cases hq : q = .sp
    · subst hq
      exact sp'.trans (BitVec.sub_add_cancel ..)
    · rw [regs' q hq, regs q (by simpa using hq)]

/-- Settles O56: both ways of entering a handler leave the same stack. -/
theorem iretUndoesHandlerEntry : Obligations.IretUndoesHandlerEntry := by
  intro s v pc ram
  exact ⟨⟨_, _, exec_int v s, rfl, return_undoes_entry pc (enterHandler_entered v s) ram⟩,
    _, rfl, return_undoes_entry pc (takeInterrupt_entered v s) ram⟩

/-- The entry of P8 that PUSHA leaves, seen from the SP it leaves. -/
theorem pusha_offsets (sp : Word) :
    sp - 42 + 2 = sp - 40 ∧ sp - 42 + 4 = sp - 38 ∧ sp - 38 + 2 = sp - 42 + BitVec.ofNat 16 6 ∧ sp - 38 + 38 = sp := by
  refine ⟨?_, ?_, ?_, ?_⟩ <;> bv_omega

/-- A place above the entry of P8 as a place below the old SP. -/
theorem pusha_place (sp : Word) {i j : Nat} (h : i + j = 38) : sp - 38 + BitVec.ofNat 16 i = sp - BitVec.ofNat 16 j := by
  have := word_sub_add sp j i
  rwa [Nat.add_comm, h] at this

/-- Settles O54: POPA reads the frame (O28) that PUSHA wrote (O27), each register from its own place. -/
theorem popaUndoesPusha : Obligations.PopaUndoesPusha := by
  intro s t t' ram pushed mem sp cfg
  obtain ⟨t₀, pushed₀, sp₀, -, frame, -, -, -, ⟨-, -, -, cfg₀⟩, -⟩ := pushaResult s
  obtain rfl : t₀ = t := Host.Outcome.next.inj (pushed₀.symm.trans pushed)
  obtain ⟨rEntry, pEntry, spEntry, fEntry, -⟩ := frame ram
  have word (a : Word) : t'.ramWord a = t₀.ramWord a := by rw [State.ramWord, mem, State.ramWord]
  have sp' : t'.sp = s.sp - 42 := sp.trans sp₀
  obtain ⟨at9, at8, at7, top⟩ := pusha_offsets s.sp
  obtain ⟨u, popped, values, -⟩ := popaResult t'
  simp only [sp', word, at8, at9, spEntry, at7, top] at values
  have ram' : t'.ramAt (s.sp - 42) 42 := ramAt_of_cfg (cfg.trans cfg₀) ram
  obtain ⟨f, p9, uSp, pLow, r, -⟩ := values (ramAt_prefix ram' 6 (by omega)) (ramAt_part ram' 6 36 (by omega))
  refine ⟨u, popped, fun n => ?_, fun n => ?_, ?_⟩
  · rw [r n, pusha_place s.sp (j := 2 + 2 * n.val) (by omega), rEntry n]
    simp
  · by_cases low : n.val < 8
    · rw [pLow n low, pusha_place s.sp (j := 22 + 2 * n.val) (by omega)]
      exact pEntry n (by omega)
    · obtain rfl | rfl : n = 8 ∨ n = 9 := by omega
      · exact uSp
      · exact p9.trans (pEntry 9 (by decide))
  · rw [f, fEntry]
    exact flagsOfImage_flagsImage s.f

end Sys2Proof.Machine
end
